-- ==== Sys2Proof/Word.lean ====
section
/-! DEFINITION. The two bit-vector types of the block: a byte and a 16-bit word (00_scope.md R9). -/

namespace Sys2Proof

/-- A byte is 8 bits, numbered from 0 at the least significant bit (00_scope.md R9). -/
abbrev Byte := BitVec 8

/-- A word is 16 bits (00_scope.md R9). -/
abbrev Word := BitVec 16

end Sys2Proof
end

