-- ==== Sys2Proof/Config.lean ====
section
/-! DEFINITION. What a run fixes: the open parameters of 00_scope.md R8, and the fixed sizes of R7. -/

namespace Sys2Proof

/-- MODE: whether the block only decodes or also executes (00_scope.md R8). -/
inductive Mode where
  | disassemble
  | execute
  deriving DecidableEq, Repr

/-- HI_BYTE_AT_FFFF: where the second byte of a word access at effective address 0xFFFF is
(00_scope.md R8, 20_memory.md R57). -/
inductive HiByteAtFFFF where
  | linear
  | wrap16
  | fault
  deriving DecidableEq, Repr

/-- The parameters of a run that stay in force while it runs (00_scope.md R8, 10_state.md R34).
CODE is the field `code` of the state and INIT_MEM an argument of `State.start`. -/
structure Params where
  mode             : Mode
  codeInDataMemory : Bool
  hiByteAtFFFF     : HiByteAtFFFF
  deriving DecidableEq, Repr

/-- The spec's defaults (00_scope.md R8). MODE has none there: Execute is the model's
[DESIGN CHOICE, unsafe; notes/assumptions/1.md]. -/
def Params.default : Params :=
  { mode := .execute, codeInDataMemory := false, hiByteAtFFFF := .fault }

/-- Data memory is 1 MiB = 2^20 bytes (00_scope.md R7, 10_state.md R36). -/
def dataMemorySize : Nat := 1048576

/-- `CODE_LEN <= 65535` (00_scope.md R8, decision D23). -/
def maxCodeLen : Nat := 65535

/-- The longest instruction is 6 bytes, so the decoder is offered at most 6 (10_state.md R39). -/
def maxInstrBytes : Nat := 6

/-- What an address that memory does not list reads as: the default of INIT_MEM
(10_state.md R43, decision D15; notes/assumptions/2.md). -/
def unlistedByte : Byte := 0x00

end Sys2Proof
end

