-- ==== Sys2Proof/Syntax.lean ====
section
/-! DEFINITION. The instruction set: operand shapes, the thirty-four instruction forms of
spec/opcode_table.json, and the instruction record that the builder hands on (00_scope.md R12). -/

namespace Sys2Proof

/-- The width flag: byte or word operation (00_scope.md R13, `w` and `wide`). -/
inductive Width where
  | byte
  | word
  deriving DecidableEq, Repr

/-- The eight general registers, in the storage order of 10_state.md R38. -/
inductive RegName where
  | a | b | c | d | sp | bp | si | di
  deriving DecidableEq, Repr

/-- The four registers that have byte halves (10_state.md R22). -/
inductive HalvedReg where
  | a | b | c | d
  deriving DecidableEq, Repr

/-- A register slice (10_state.md R22, R23): a whole register, or the low (offset 0) or high
(offset 1) byte of a, b, c or d. No illegal slice can be written.
R22 counts twelve and then lists sixteen, as the table of R23 does: the model has the sixteen
[DEDUCED, safe; notes/assumptions/8.md]. -/
inductive Slice where
  | word (n : RegName)
  | low  (n : HalvedReg)
  | high (n : HalvedReg)
  deriving DecidableEq, Repr

/-- The eight addressing expressions, in `r/m` order (30_encoding.md R75). -/
inductive AddrExpr where
  | bxsi | bxdi | bpsi | bpdi | si | di | bp | bx
  deriving DecidableEq, Repr

/-- A memory operand as it is encoded (30_encoding.md R74): `mod` = 00 with `r/m` = 110 (direct)
or another `r/m` (no displacement), `mod` = 01, `mod` = 10. Forms that name the same operand stay
apart, since they differ in length. -/
inductive MemForm where
  | direct (addr : Word)
  | noDisp (e : AddrExpr)
  | disp8  (e : AddrExpr) (d : Byte)
  | disp16 (e : AddrExpr) (d : Word)
  deriving DecidableEq, Repr

/-- What `mod` and `r/m` name (30_encoding.md R74): a register slice (`mod` = 11) or memory. -/
inductive Rm where
  | reg (r : Slice)
  | mem (m : MemForm)
  deriving DecidableEq, Repr

/-- The direction bit `d` of RM_REG (30_encoding.md R71, 40_decoder.md R130): `toReg` is d = 1, the
`reg` field names the destination. -/
inductive Dir where
  | toRm
  | toReg
  deriving DecidableEq, Repr

/-- An immediate of context (false, w) (30_encoding.md R78): one raw byte or two. -/
inductive Imm where
  | byte (v : Byte)
  | word (v : Word)
  deriving DecidableEq, Repr

/-- An immediate of context (s, w) in GRP_IMM (30_encoding.md R78). The context (true, false) is
malformed and cannot be written. -/
inductive GrpImm where
  | byte (v : Byte)
  | word (v : Word)
  | sext (v : Byte)
  deriving DecidableEq, Repr

/-- The three arithmetic kinds (42_arith.md). -/
inductive Arith where
  | add | sub | cmp
  deriving DecidableEq, Repr

/-- The four data kinds of format RM_REG (30_encoding.md R73). -/
inductive DataKind where
  | mov
  | arith (a : Arith)
  deriving DecidableEq, Repr

/-- The twenty jump and loop kinds, in the order of 30_encoding.md R90. -/
inductive JumpKind where
  | je | jl | jle | jb | jbe | jp | jo | js | jnz | jnl | jg | jnb | ja | jnp | jno | jns
  | loop | loopz | loopnz | jcxz
  deriving DecidableEq, Repr

/-- The twenty-four operation kinds (00_scope.md R2, 30_encoding.md R90). -/
inductive Kind where
  | data (k : DataKind)
  | jump (j : JumpKind)
  deriving DecidableEq, Repr

/-- The instructions: one constructor for each row of spec/opcode_table.json, in its order. Each keeps
every bit of its encoding. -/
inductive Instr where
  | movRmReg (dir : Dir) (w : Width) (reg : Slice) (rm : Rm)
  | movImmRm (m : MemForm) (imm : Imm)
  | movImmReg (reg : Slice) (imm : Imm)
  | movMemToAcc (w : Width) (addr : Word)
  | movAccToMem (w : Width) (addr : Word)
  | addRmReg (dir : Dir) (w : Width) (reg : Slice) (rm : Rm)
  | addGrpImm (rm : Rm) (imm : GrpImm)
  | addAccImm (imm : Imm)
  | subRmReg (dir : Dir) (w : Width) (reg : Slice) (rm : Rm)
  | subGrpImm (rm : Rm) (imm : GrpImm)
  | subAccImm (imm : Imm)
  | cmpRmReg (dir : Dir) (w : Width) (reg : Slice) (rm : Rm)
  | cmpGrpImm (rm : Rm) (imm : GrpImm)
  | cmpAccImm (imm : Imm)
  | je (disp : Byte)
  | jl (disp : Byte)
  | jle (disp : Byte)
  | jb (disp : Byte)
  | jbe (disp : Byte)
  | jp (disp : Byte)
  | jo (disp : Byte)
  | js (disp : Byte)
  | jnz (disp : Byte)
  | jnl (disp : Byte)
  | jg (disp : Byte)
  | jnb (disp : Byte)
  | ja (disp : Byte)
  | jnp (disp : Byte)
  | jno (disp : Byte)
  | jns (disp : Byte)
  | loop (disp : Byte)
  | loopz (disp : Byte)
  | loopnz (disp : Byte)
  | jcxz (disp : Byte)
  deriving DecidableEq, Repr

/-- A memory operand of a record: a direct address, or an expression and a signed displacement held
in 16 bits (10_state.md R38, 40_decoder.md R122). The two are distinct values. -/
inductive MemOperand where
  | direct (addr : Word)
  | based  (e : AddrExpr) (disp : Word)
  deriving DecidableEq, Repr

/-- A location an operation can write (40_decoder.md R136). -/
inductive Loc where
  | reg (r : Slice)
  | mem (m : MemOperand)
  deriving DecidableEq, Repr

/-- An operand of a record (00_scope.md R12). The immediate and the jump value are held in 32 bits,
two's complement (10_state.md R38). An absent second operand is `none` of an Option. -/
inductive Operand where
  | reg (r : Slice)
  | mem (m : MemOperand)
  | imm (v : BitVec 32)
  | rel (v : BitVec 32)
  deriving DecidableEq, Repr

/-- The instruction record `Inst{kind, wide, size, op0, op1}` (00_scope.md R12, 10_state.md R38). -/
structure InstRecord where
  kind : Kind
  wide : Width
  size : Nat
  op0  : Operand
  op1  : Option Operand
  deriving DecidableEq, Repr

/-- The details of a malformed encoding (60_exceptions.md R240). -/
inductive MalformedDetail where
  | registerDirect
  | regField
  | signExtendByte
  deriving DecidableEq, Repr

end Sys2Proof
end

