-- ==== Sys2Proof/WellFormed.lean ====
section
/-! DEFINITION. Which terms of `Instr` are instructions: the operand widths agree with the width flag
(40_decoder.md R131), and `mod` = 00 with `r/m` = 110 is never `[bp]` (30_encoding.md R74). -/

namespace Sys2Proof

/-- The width of a slice, in the bytes of 10_state.md R22: word slices are words, halves bytes. -/
def Slice.width : Slice → Width
  | .word _ => .word
  | .low _ => .byte
  | .high _ => .byte

/-- The width of an immediate of context (false, w). -/
def Imm.width : Imm → Width
  | .byte _ => .byte
  | .word _ => .word

/-- The width of an immediate of GRP_IMM: the sign-extended byte has w = 1. -/
def GrpImm.width : GrpImm → Width
  | .byte _ => .byte
  | .word _ => .word
  | .sext _ => .word

/-- `mod` = 00, `r/m` = 110 is the direct address, so `[bp]` has no form without a displacement. -/
def MemForm.wf : MemForm → Bool
  | .noDisp .bp => false
  | _ => true

/-- An `r/m` operand at width `w`. -/
def Rm.wf (w : Width) : Rm → Bool
  | .reg r => r.width == w
  | .mem m => m.wf

/-- The well-formed instructions: those some bytes decode to. -/
def Instr.wf : Instr → Bool
  | .movRmReg _ w reg rm => reg.width == w && rm.wf w
  | .movImmRm m _ => m.wf
  | .movImmReg reg imm => reg.width == imm.width
  | .movMemToAcc _ _ => true
  | .movAccToMem _ _ => true
  | .addRmReg _ w reg rm => reg.width == w && rm.wf w
  | .addGrpImm rm imm => rm.wf imm.width
  | .addAccImm _ => true
  | .subRmReg _ w reg rm => reg.width == w && rm.wf w
  | .subGrpImm rm imm => rm.wf imm.width
  | .subAccImm _ => true
  | .cmpRmReg _ w reg rm => reg.width == w && rm.wf w
  | .cmpGrpImm rm imm => rm.wf imm.width
  | .cmpAccImm _ => true
  | .je _ => true
  | .jl _ => true
  | .jle _ => true
  | .jb _ => true
  | .jbe _ => true
  | .jp _ => true
  | .jo _ => true
  | .js _ => true
  | .jnz _ => true
  | .jnl _ => true
  | .jg _ => true
  | .jnb _ => true
  | .ja _ => true
  | .jnp _ => true
  | .jno _ => true
  | .jns _ => true
  | .loop _ => true
  | .loopz _ => true
  | .loopnz _ => true
  | .jcxz _ => true

end Sys2Proof
end

