-- ==== Sys2Proof/Decode.lean ====
section
/-! DEFINITION. The decoder of 40_decoder.md (bit-field extractor, opcode classifier, operand decoder,
instruction builder), the encoder written from the formats of 30_encoding.md R73, and the
instruction record of 00_scope.md R12. -/

namespace Sys2Proof

/-! ## Bytes and fields -/

/-- `field(byte, offset, n)` (40_decoder.md R110). -/
def field (b : Byte) (offset n : Nat) : BitVec n := b.extractLsb' offset n

/-- The classifier's top bits at width `k`, as a number (40_decoder.md R111). -/
def top (b : Byte) (k : Nat) : Nat := (field b (8 - k) k).toNat

/-- Two bytes in fetch order, low byte first, as a word (20_memory.md R55). -/
def wordOfBytes (lo hi : Byte) : Word := hi ++ lo

/-- Bits 7:0 of a word. -/
def loByte (v : Word) : Byte := v.extractLsb' 0 8

/-- Bits 15:8 of a word. -/
def hiByte (v : Word) : Byte := v.extractLsb' 8 8

/-- `zext_16` of a byte (00_scope.md R10). -/
def zext16 (b : Byte) : Word := b.setWidth 16

/-- `trunc_16(sext_8(b))`, sign-extension (00_scope.md R10). -/
def sext16 (b : Byte) : Word := b.signExtend 16

/-! ## Opcode classifier -/

/-- What an opcode pattern selects: its form, with the kind where the pattern fixes one
(30_encoding.md R80). `grpImm` is the marker `(GROUP, GRP_IMM)` of 40_decoder.md R112. -/
inductive OpForm where
  | rel8 (j : JumpKind)
  | immRm
  | memToAcc
  | accToMem
  | accImm (a : Arith)
  | rmReg (k : DataKind)
  | immReg
  | grpImm
  deriving DecidableEq, Repr

/-- A row of the classifier's table: a width, the value of that many top bits, what it selects. -/
structure TableRow where
  width : Nat
  value : Nat
  form  : OpForm
  deriving DecidableEq, Repr

/-- The rows of 30_encoding.md R80 for the conditional jumps. -/
def jccRows : List TableRow :=
  [⟨8, 0x70, .rel8 .jo⟩, ⟨8, 0x71, .rel8 .jno⟩, ⟨8, 0x72, .rel8 .jb⟩, ⟨8, 0x73, .rel8 .jnb⟩,
   ⟨8, 0x74, .rel8 .je⟩, ⟨8, 0x75, .rel8 .jnz⟩, ⟨8, 0x76, .rel8 .jbe⟩, ⟨8, 0x77, .rel8 .ja⟩,
   ⟨8, 0x78, .rel8 .js⟩, ⟨8, 0x79, .rel8 .jns⟩, ⟨8, 0x7A, .rel8 .jp⟩, ⟨8, 0x7B, .rel8 .jnp⟩,
   ⟨8, 0x7C, .rel8 .jl⟩, ⟨8, 0x7D, .rel8 .jnl⟩, ⟨8, 0x7E, .rel8 .jle⟩, ⟨8, 0x7F, .rel8 .jg⟩]

/-- The rows of 30_encoding.md R80 for the loop family. -/
def loopRows : List TableRow :=
  [⟨8, 0xE0, .rel8 .loopnz⟩, ⟨8, 0xE1, .rel8 .loopz⟩, ⟨8, 0xE2, .rel8 .loop⟩,
   ⟨8, 0xE3, .rel8 .jcxz⟩]

/-- The rows of 30_encoding.md R80 for the data operations. -/
def dataRows : List TableRow :=
  [⟨7, 0b1100011, .immRm⟩, ⟨7, 0b1010000, .memToAcc⟩, ⟨7, 0b1010001, .accToMem⟩,
   ⟨7, 0b0000010, .accImm .add⟩, ⟨7, 0b0010110, .accImm .sub⟩, ⟨7, 0b0011110, .accImm .cmp⟩,
   ⟨6, 0b100010, .rmReg .mov⟩, ⟨6, 0b000000, .rmReg (.arith .add)⟩,
   ⟨6, 0b001010, .rmReg (.arith .sub)⟩, ⟨6, 0b001110, .rmReg (.arith .cmp)⟩,
   ⟨6, 0b100000, .grpImm⟩, ⟨4, 0b1011, .immReg⟩]

/-- The classifier's lookup table (30_encoding.md R80, 40_decoder.md R112). -/
def opcodeTable : List TableRow := jccRows ++ loopRows ++ dataRows

/-- The table's entry for a width and a value, if it has one. -/
def tableEntry (k v : Nat) : Option OpForm :=
  (opcodeTable.find? fun r => r.width == k && r.value == v).map (·.form)

/-- The widths tried, in order (40_decoder.md R113). -/
def classifierWidths : List Nat := [8, 7, 6, 5, 4]

/-- `classify(b0)`: the first width whose top bits appear in the table wins (40_decoder.md R113). -/
def classify (b0 : Byte) : Option OpForm :=
  classifierWidths.findSome? fun k => tableEntry k (top b0 k)

/-- `classify_extra(ext)` (40_decoder.md R114). -/
def classifyExtra (ext : BitVec 3) : Option Arith :=
  match ext.toNat with
  | 0b000 => some .add
  | 0b101 => some .sub
  | 0b111 => some .cmp
  | _ => none

/-! ## Operand decoder -/

/-- The word register of an index (40_decoder.md R120, w = 1). -/
def regNameOf (idx : BitVec 3) : RegName :=
  match idx.toNat with
  | 0 => .a
  | 1 => .c
  | 2 => .d
  | 3 => .b
  | 4 => .sp
  | 5 => .bp
  | 6 => .si
  | _ => .di

/-- The byte slice of an index (40_decoder.md R120, w = 0). -/
def byteSliceOf (idx : BitVec 3) : Slice :=
  match idx.toNat with
  | 0 => .low .a
  | 1 => .low .c
  | 2 => .low .d
  | 3 => .low .b
  | 4 => .high .a
  | 5 => .high .c
  | 6 => .high .d
  | _ => .high .b

/-- `RegOperand(idx, w)` (40_decoder.md R121). -/
def regOperand (idx : BitVec 3) : Width → Slice
  | .byte => byteSliceOf idx
  | .word => .word (regNameOf idx)

/-- The accumulator slice of a width: `RegOperand(000, w)` (30_encoding.md R73). -/
def accumulator : Width → Slice
  | .byte => .low .a
  | .word => .word .a

/-- `EXPR[rm]` (30_encoding.md R75). -/
def addrExprOf (rm : BitVec 3) : AddrExpr :=
  match rm.toNat with
  | 0 => .bxsi
  | 1 => .bxdi
  | 2 => .bpsi
  | 3 => .bpdi
  | 4 => .si
  | 5 => .di
  | 6 => .bp
  | _ => .bx

/-- The width a width bit selects (30_encoding.md R71). -/
def widthOf (w : BitVec 1) : Width := if w = 1 then .word else .byte

/-- Two bytes read one after the other, low byte first; none when they run out. -/
def takeWord : List Byte → Option (Word × List Byte)
  | lo :: hi :: rest => some (wordOfBytes lo hi, rest)
  | _ => none

/-- The memory part of `RmOperand` (40_decoder.md R122), for `mod` other than 11; none when the bytes
run out. -/
def decodeMem (md : BitVec 2) (rm : BitVec 3) (bs : List Byte) : Option (MemForm × List Byte) :=
  if md = 0b00 then
    if rm = 0b110 then
      (takeWord bs).map fun (v, rest) => (.direct v, rest)
    else
      some (.noDisp (addrExprOf rm), bs)
  else if md = 0b01 then
    match bs with
    | d :: rest => some (.disp8 (addrExprOf rm) d, rest)
    | [] => none
  else
    (takeWord bs).map fun (v, rest) => (.disp16 (addrExprOf rm) v, rest)

/-- `RmOperand(mod, rm, w)` (40_decoder.md R122). -/
def decodeRm (md : BitVec 2) (rm : BitVec 3) (w : Width) (bs : List Byte) :
    Option (Rm × List Byte) :=
  if md = 0b11 then
    some (.reg (regOperand rm w), bs)
  else
    (decodeMem md rm bs).map fun (m, rest) => (.mem m, rest)

/-- `ImmOperand(0, w)` (40_decoder.md R125). -/
def decodeImm (w : Width) (bs : List Byte) : Option Imm :=
  match w, bs with
  | .byte, v :: _ => some (.byte v)
  | .word, lo :: hi :: _ => some (.word (wordOfBytes lo hi))
  | _, _ => none

/-- `ImmOperand(s, w)` of GRP_IMM (40_decoder.md R125); the builder has already turned away the
context (true, false). -/
def decodeGrpImm (s : BitVec 1) (w : Width) (bs : List Byte) : Option GrpImm :=
  match w, bs with
  | .byte, v :: _ => some (.byte v)
  | .word, lo :: rest =>
    if s = 1 then some (.sext lo)
    else
      match rest with
      | hi :: _ => some (.word (wordOfBytes lo hi))
      | [] => none
  | _, [] => none

/-! ## Instruction builder -/

/-- A decode fault and the bytes of the instruction read so far (60_exceptions.md R240, R246). -/
inductive DecodeFault where
  | unknownOpcode (read : List Byte)
  | malformed (detail : MalformedDetail) (read : List Byte)
  | truncated (read : List Byte)
  deriving DecidableEq, Repr

/-- What the decoder answers for a window of bytes. -/
inductive Decoded where
  | ok (i : Instr)
  | fault (f : DecodeFault)
  deriving DecidableEq, Repr

/-- The constructor of a jump kind. -/
def jumpInstr : JumpKind → Byte → Instr
  | .je => .je
  | .jl => .jl
  | .jle => .jle
  | .jb => .jb
  | .jbe => .jbe
  | .jp => .jp
  | .jo => .jo
  | .js => .js
  | .jnz => .jnz
  | .jnl => .jnl
  | .jg => .jg
  | .jnb => .jnb
  | .ja => .ja
  | .jnp => .jnp
  | .jno => .jno
  | .jns => .jns
  | .loop => .loop
  | .loopz => .loopz
  | .loopnz => .loopnz
  | .jcxz => .jcxz

/-- The constructor of a data kind in format RM_REG. -/
def rmRegInstr : DataKind → Dir → Width → Slice → Rm → Instr
  | .mov => .movRmReg
  | .arith .add => .addRmReg
  | .arith .sub => .subRmReg
  | .arith .cmp => .cmpRmReg

/-- The constructor of an arithmetic kind in format GRP_IMM. -/
def grpImmInstr : Arith → Rm → GrpImm → Instr
  | .add => .addGrpImm
  | .sub => .subGrpImm
  | .cmp => .cmpGrpImm

/-- The constructor of an arithmetic kind in format ACC_IMM. -/
def accImmInstr : Arith → Imm → Instr
  | .add => .addAccImm
  | .sub => .subAccImm
  | .cmp => .cmpAccImm

/-- The direction a direction bit selects (40_decoder.md R130). -/
def dirOf (d : BitVec 1) : Dir := if d = 1 then .toReg else .toRm

/-- A built instruction, or `Truncated` with every byte of the window read (40_decoder.md R128). -/
def orTruncated (window : List Byte) : Option Instr → Decoded
  | some i => .ok i
  | none => .fault (.truncated window)

/-- The RM_REG arm of `Build` after byte 0 (40_decoder.md R129, R130). -/
def buildRmReg (k : DataKind) (b0 : Byte) : List Byte → Option Instr
  | [] => none
  | b1 :: rest =>
    let w := widthOf (field b0 0 1)
    (decodeRm (field b1 6 2) (field b1 0 3) w rest).map fun (rm, _) =>
      rmRegInstr k (dirOf (field b0 1 1)) w (regOperand (field b1 3 3) w) rm

/-- The IMM_RM arm of `Build` after byte 0 (40_decoder.md R129): both malformed checks come before
any further byte is read. -/
def buildImmRm (b0 : Byte) : List Byte → Decoded
  | [] => .fault (.truncated [b0])
  | b1 :: rest =>
    if field b1 6 2 = 0b11 then .fault (.malformed .registerDirect [b0, b1])
    else if field b1 3 3 ≠ 0b000 then .fault (.malformed .regField [b0, b1])
    else
      orTruncated (b0 :: b1 :: rest) <|
        match decodeMem (field b1 6 2) (field b1 0 3) rest with
        | some (m, rest') => (decodeImm (widthOf (field b0 0 1)) rest').map (.movImmRm m)
        | none => none

/-- The GRP_IMM arm of `Build` after byte 0 (40_decoder.md R114, R129): the extra opcode is checked
before the sign-extended byte context (60_exceptions.md R247). -/
def buildGrpImm (b0 : Byte) : List Byte → Decoded
  | [] => .fault (.truncated [b0])
  | b1 :: rest =>
    match classifyExtra (field b1 3 3) with
    | none => .fault (.unknownOpcode [b0, b1])
    | some a =>
      if field b0 1 1 = 1 ∧ field b0 0 1 = 0 then .fault (.malformed .signExtendByte [b0, b1])
      else
        let w := widthOf (field b0 0 1)
        orTruncated (b0 :: b1 :: rest) <|
          match decodeRm (field b1 6 2) (field b1 0 3) w rest with
          | some (rm, rest') => (decodeGrpImm (field b0 1 1) w rest').map (grpImmInstr a rm)
          | none => none

/-- `Build()` over the bytes available from the instruction's first byte on (40_decoder.md R129).
Total: it answers an instruction or names the fault. -/
def decode : List Byte → Decoded
  | [] => .fault (.truncated [])
  | b0 :: rest =>
    match classify b0 with
    | none => .fault (.unknownOpcode [b0])
    | some .grpImm => buildGrpImm b0 rest
    | some .immRm => buildImmRm b0 rest
    | some (.rmReg k) => orTruncated (b0 :: rest) (buildRmReg k b0 rest)
    | some (.rel8 j) => orTruncated (b0 :: rest) (rest.head?.map (jumpInstr j))
    | some .immReg =>
      let w := widthOf (field b0 3 1)
      orTruncated (b0 :: rest) ((decodeImm w rest).map (.movImmReg (regOperand (field b0 0 3) w)))
    | some .memToAcc =>
      orTruncated (b0 :: rest)
        ((takeWord rest).map fun (addr, _) => .movMemToAcc (widthOf (field b0 0 1)) addr)
    | some .accToMem =>
      orTruncated (b0 :: rest)
        ((takeWord rest).map fun (addr, _) => .movAccToMem (widthOf (field b0 0 1)) addr)
    | some (.accImm a) =>
      orTruncated (b0 :: rest) ((decodeImm (widthOf (field b0 0 1)) rest).map (accImmInstr a))

/-! ## Encoder -/

/-- The width bit. -/
def Width.bit : Width → BitVec 1
  | .byte => 0
  | .word => 1

/-- The direction bit. -/
def Dir.bit : Dir → BitVec 1
  | .toRm => 0
  | .toReg => 1

/-- The index of a word register (40_decoder.md R120). -/
def RegName.encIndex : RegName → BitVec 3
  | .a => 0b000
  | .c => 0b001
  | .d => 0b010
  | .b => 0b011
  | .sp => 0b100
  | .bp => 0b101
  | .si => 0b110
  | .di => 0b111

/-- The index of a slice at its own width (40_decoder.md R120). -/
def Slice.encIndex : Slice → BitVec 3
  | .word n => n.encIndex
  | .low .a => 0b000
  | .low .c => 0b001
  | .low .d => 0b010
  | .low .b => 0b011
  | .high .a => 0b100
  | .high .c => 0b101
  | .high .d => 0b110
  | .high .b => 0b111

/-- The `r/m` value of an addressing expression (30_encoding.md R75). -/
def AddrExpr.rmBits : AddrExpr → BitVec 3
  | .bxsi => 0b000
  | .bxdi => 0b001
  | .bpsi => 0b010
  | .bpdi => 0b011
  | .si => 0b100
  | .di => 0b101
  | .bp => 0b110
  | .bx => 0b111

/-- The ModRM-style byte `mod reg r/m` (30_encoding.md R72). -/
def modRm (md : BitVec 2) (reg rm : BitVec 3) : Byte := md ++ reg ++ rm

/-- A word as two bytes of the instruction stream, low byte first (20_memory.md R55). -/
def wordBytes (v : Word) : List Byte := [loByte v, hiByte v]

/-- The ModRM-style byte and the displacement or address bytes of a memory operand
(30_encoding.md R74, R76, R77). -/
def MemForm.encode (reg : BitVec 3) : MemForm → List Byte
  | .direct addr => modRm 0b00 reg 0b110 :: wordBytes addr
  | .noDisp e => [modRm 0b00 reg e.rmBits]
  | .disp8 e d => [modRm 0b01 reg e.rmBits, d]
  | .disp16 e d => modRm 0b10 reg e.rmBits :: wordBytes d

/-- The ModRM-style byte and what follows it for an `r/m` operand (30_encoding.md R74). -/
def Rm.encode (reg : BitVec 3) : Rm → List Byte
  | .reg r => [modRm 0b11 reg r.encIndex]
  | .mem m => m.encode reg

/-- The data bytes of an immediate (30_encoding.md R78). -/
def Imm.bytes : Imm → List Byte
  | .byte v => [v]
  | .word v => wordBytes v

/-- The data bytes of a GRP_IMM immediate (30_encoding.md R78). -/
def GrpImm.bytes : GrpImm → List Byte
  | .byte v => [v]
  | .word v => wordBytes v
  | .sext v => [v]

/-- The sign-extend bit `s` of a GRP_IMM immediate (30_encoding.md R71). -/
def GrpImm.sBit : GrpImm → BitVec 1
  | .byte _ => 0
  | .word _ => 0
  | .sext _ => 1

/-- The six opcode bits of a data kind in RM_REG (30_encoding.md R73). -/
def DataKind.rmRegBits : DataKind → BitVec 6
  | .mov => 0b100010
  | .arith .add => 0b000000
  | .arith .sub => 0b001010
  | .arith .cmp => 0b001110

/-- The extra opcode of an arithmetic kind in GRP_IMM (30_encoding.md R73). -/
def Arith.extBits : Arith → BitVec 3
  | .add => 0b000
  | .sub => 0b101
  | .cmp => 0b111

/-- The seven opcode bits of an arithmetic kind in ACC_IMM (30_encoding.md R73). -/
def Arith.accImmBits : Arith → BitVec 7
  | .add => 0b0000010
  | .sub => 0b0010110
  | .cmp => 0b0011110

/-- The opcode byte of a jump or loop kind (30_encoding.md R80, 43_jumps.md). -/
def JumpKind.opcode : JumpKind → Byte
  | .jo => 0x70
  | .jno => 0x71
  | .jb => 0x72
  | .jnb => 0x73
  | .je => 0x74
  | .jnz => 0x75
  | .jbe => 0x76
  | .ja => 0x77
  | .js => 0x78
  | .jns => 0x79
  | .jp => 0x7A
  | .jnp => 0x7B
  | .jl => 0x7C
  | .jnl => 0x7D
  | .jle => 0x7E
  | .jg => 0x7F
  | .loopnz => 0xE0
  | .loopz => 0xE1
  | .loop => 0xE2
  | .jcxz => 0xE3

/-- Format RM_REG: `oooooo d w`, `mod reg r/m`, displacement (30_encoding.md R73). -/
def encodeRmReg (k : DataKind) (dir : Dir) (w : Width) (reg : Slice) (rm : Rm) : List Byte :=
  (k.rmRegBits ++ dir.bit ++ w.bit : Byte) :: rm.encode reg.encIndex

/-- Format GRP_IMM: `100000 s w`, `mod ext r/m`, displacement, data (30_encoding.md R73). -/
def encodeGrpImm (a : Arith) (rm : Rm) (imm : GrpImm) : List Byte :=
  ((0b100000#6 ++ imm.sBit ++ imm.width.bit : Byte) :: rm.encode a.extBits) ++ imm.bytes

/-- Format ACC_IMM: `ooooooo w`, data (30_encoding.md R73). -/
def encodeAccImm (a : Arith) (imm : Imm) : List Byte :=
  (a.accImmBits ++ imm.width.bit : Byte) :: imm.bytes

/-- Format REL8: `oooooooo`, disp8 (30_encoding.md R73). -/
def encodeJump (j : JumpKind) (disp : Byte) : List Byte := [j.opcode, disp]

/-- The bytes of an instruction in fetch order (30_encoding.md R70, R73). -/
def encode : Instr → List Byte
  | .movRmReg dir w reg rm => encodeRmReg .mov dir w reg rm
  | .movImmRm m imm => ((0b1100011#7 ++ imm.width.bit : Byte) :: m.encode 0b000) ++ imm.bytes
  | .movImmReg reg imm => (0b1011#4 ++ imm.width.bit ++ reg.encIndex : Byte) :: imm.bytes
  | .movMemToAcc w addr => (0b1010000#7 ++ w.bit : Byte) :: wordBytes addr
  | .movAccToMem w addr => (0b1010001#7 ++ w.bit : Byte) :: wordBytes addr
  | .addRmReg dir w reg rm => encodeRmReg (.arith .add) dir w reg rm
  | .addGrpImm rm imm => encodeGrpImm .add rm imm
  | .addAccImm imm => encodeAccImm .add imm
  | .subRmReg dir w reg rm => encodeRmReg (.arith .sub) dir w reg rm
  | .subGrpImm rm imm => encodeGrpImm .sub rm imm
  | .subAccImm imm => encodeAccImm .sub imm
  | .cmpRmReg dir w reg rm => encodeRmReg (.arith .cmp) dir w reg rm
  | .cmpGrpImm rm imm => encodeGrpImm .cmp rm imm
  | .cmpAccImm imm => encodeAccImm .cmp imm
  | .je d => encodeJump .je d
  | .jl d => encodeJump .jl d
  | .jle d => encodeJump .jle d
  | .jb d => encodeJump .jb d
  | .jbe d => encodeJump .jbe d
  | .jp d => encodeJump .jp d
  | .jo d => encodeJump .jo d
  | .js d => encodeJump .js d
  | .jnz d => encodeJump .jnz d
  | .jnl d => encodeJump .jnl d
  | .jg d => encodeJump .jg d
  | .jnb d => encodeJump .jnb d
  | .ja d => encodeJump .ja d
  | .jnp d => encodeJump .jnp d
  | .jno d => encodeJump .jno d
  | .jns d => encodeJump .jns d
  | .loop d => encodeJump .loop d
  | .loopz d => encodeJump .loopz d
  | .loopnz d => encodeJump .loopnz d
  | .jcxz d => encodeJump .jcxz d

/-! ## Length and record -/

/-- `D` of 30_encoding.md R84 for a memory operand. -/
def MemForm.dispBytes : MemForm → Nat
  | .direct _ => 2
  | .noDisp _ => 0
  | .disp8 _ _ => 1
  | .disp16 _ _ => 2

/-- `D` of 30_encoding.md R84. -/
def Rm.dispBytes : Rm → Nat
  | .reg _ => 0
  | .mem m => m.dispBytes

/-- The data bytes of an immediate, `1 + w` (30_encoding.md R84). -/
def Imm.dataBytes : Imm → Nat
  | .byte _ => 1
  | .word _ => 2

/-- The data bytes of a GRP_IMM immediate: 2 if s = 0 and w = 1, else 1 (30_encoding.md R84). -/
def GrpImm.dataBytes : GrpImm → Nat
  | .byte _ => 1
  | .word _ => 2
  | .sext _ => 1

/-- The length of an instruction by form (30_encoding.md R84). -/
def Instr.size : Instr → Nat
  | .movRmReg _ _ _ rm => 2 + rm.dispBytes
  | .movImmRm m imm => 2 + m.dispBytes + imm.dataBytes
  | .movImmReg _ imm => 1 + imm.dataBytes
  | .movMemToAcc _ _ => 3
  | .movAccToMem _ _ => 3
  | .addRmReg _ _ _ rm => 2 + rm.dispBytes
  | .addGrpImm rm imm => 2 + rm.dispBytes + imm.dataBytes
  | .addAccImm imm => 1 + imm.dataBytes
  | .subRmReg _ _ _ rm => 2 + rm.dispBytes
  | .subGrpImm rm imm => 2 + rm.dispBytes + imm.dataBytes
  | .subAccImm imm => 1 + imm.dataBytes
  | .cmpRmReg _ _ _ rm => 2 + rm.dispBytes
  | .cmpGrpImm rm imm => 2 + rm.dispBytes + imm.dataBytes
  | .cmpAccImm imm => 1 + imm.dataBytes
  | .je _ => 2
  | .jl _ => 2
  | .jle _ => 2
  | .jb _ => 2
  | .jbe _ => 2
  | .jp _ => 2
  | .jo _ => 2
  | .js _ => 2
  | .jnz _ => 2
  | .jnl _ => 2
  | .jg _ => 2
  | .jnb _ => 2
  | .ja _ => 2
  | .jnp _ => 2
  | .jno _ => 2
  | .jns _ => 2
  | .loop _ => 2
  | .loopz _ => 2
  | .loopnz _ => 2
  | .jcxz _ => 2

/-- The operand value of an encoded memory operand (40_decoder.md R122): a displacement byte is
sign-extended to 16 bits. -/
def MemForm.operand : MemForm → MemOperand
  | .direct addr => .direct addr
  | .noDisp e => .based e 0
  | .disp8 e d => .based e (sext16 d)
  | .disp16 e d => .based e d

/-- The location an `r/m` operand names. -/
def Rm.loc : Rm → Loc
  | .reg r => .reg r
  | .mem m => .mem m.operand

/-- A location as an operand. -/
def Loc.operand : Loc → Operand
  | .reg r => .reg r
  | .mem m => .mem m

/-- The stored value of an immediate (30_encoding.md R78): zero-extended. -/
def Imm.value : Imm → BitVec 32
  | .byte v => v.setWidth 32
  | .word v => v.setWidth 32

/-- The stored value of a GRP_IMM immediate (30_encoding.md R78): zero-extended for s = 0,
sign-extended for s = 1. -/
def GrpImm.value : GrpImm → BitVec 32
  | .byte v => v.setWidth 32
  | .word v => v.setWidth 32
  | .sext v => v.signExtend 32

/-- The stored value of a jump operand, `sext_8(disp8) + 2` (30_encoding.md R79). -/
def relValue (disp : Byte) : BitVec 32 := disp.signExtend 32 + 2

/-- The destination of RM_REG: the `reg` field's slice for d = 1, else the `r/m` operand
(40_decoder.md R130). -/
def rmRegDst (dir : Dir) (reg : Slice) (rm : Rm) : Loc :=
  match dir with
  | .toReg => .reg reg
  | .toRm => rm.loc

/-- The source of RM_REG (40_decoder.md R130). -/
def rmRegSrc (dir : Dir) (reg : Slice) (rm : Rm) : Operand :=
  match dir with
  | .toReg => rm.loc.operand
  | .toRm => .reg reg

/-- The record of a two-operand instruction. -/
def dataRecord (k : DataKind) (w : Width) (size : Nat) (dst : Loc) (src : Operand) : InstRecord :=
  { kind := .data k, wide := w, size := size, op0 := dst.operand, op1 := some src }

/-- The record of a jump or loop kind: one operand, `wide` = 0, size 2 (43_jumps.md R200). -/
def jumpRecord (j : JumpKind) (disp : Byte) : InstRecord :=
  { kind := .jump j, wide := .byte, size := 2, op0 := .rel (relValue disp), op1 := none }

/-- The instruction record the builder hands on (00_scope.md R12, 40_decoder.md R129, R131). -/
def Instr.record (i : Instr) : InstRecord :=
  match i with
  | .movRmReg dir w reg rm => dataRecord .mov w i.size (rmRegDst dir reg rm) (rmRegSrc dir reg rm)
  | .movImmRm m imm => dataRecord .mov imm.width i.size (.mem m.operand) (.imm imm.value)
  | .movImmReg reg imm => dataRecord .mov imm.width i.size (.reg reg) (.imm imm.value)
  | .movMemToAcc w addr => dataRecord .mov w i.size (.reg (accumulator w)) (.mem (.direct addr))
  | .movAccToMem w addr => dataRecord .mov w i.size (.mem (.direct addr)) (.reg (accumulator w))
  | .addRmReg dir w reg rm =>
    dataRecord (.arith .add) w i.size (rmRegDst dir reg rm) (rmRegSrc dir reg rm)
  | .addGrpImm rm imm => dataRecord (.arith .add) imm.width i.size rm.loc (.imm imm.value)
  | .addAccImm imm =>
    dataRecord (.arith .add) imm.width i.size (.reg (accumulator imm.width)) (.imm imm.value)
  | .subRmReg dir w reg rm =>
    dataRecord (.arith .sub) w i.size (rmRegDst dir reg rm) (rmRegSrc dir reg rm)
  | .subGrpImm rm imm => dataRecord (.arith .sub) imm.width i.size rm.loc (.imm imm.value)
  | .subAccImm imm =>
    dataRecord (.arith .sub) imm.width i.size (.reg (accumulator imm.width)) (.imm imm.value)
  | .cmpRmReg dir w reg rm =>
    dataRecord (.arith .cmp) w i.size (rmRegDst dir reg rm) (rmRegSrc dir reg rm)
  | .cmpGrpImm rm imm => dataRecord (.arith .cmp) imm.width i.size rm.loc (.imm imm.value)
  | .cmpAccImm imm =>
    dataRecord (.arith .cmp) imm.width i.size (.reg (accumulator imm.width)) (.imm imm.value)
  | .je d => jumpRecord .je d
  | .jl d => jumpRecord .jl d
  | .jle d => jumpRecord .jle d
  | .jb d => jumpRecord .jb d
  | .jbe d => jumpRecord .jbe d
  | .jp d => jumpRecord .jp d
  | .jo d => jumpRecord .jo d
  | .js d => jumpRecord .js d
  | .jnz d => jumpRecord .jnz d
  | .jnl d => jumpRecord .jnl d
  | .jg d => jumpRecord .jg d
  | .jnb d => jumpRecord .jnb d
  | .ja d => jumpRecord .ja d
  | .jnp d => jumpRecord .jnp d
  | .jno d => jumpRecord .jno d
  | .jns d => jumpRecord .jns d
  | .loop d => jumpRecord .loop d
  | .loopz d => jumpRecord .loopz d
  | .loopnz d => jumpRecord .loopnz d
  | .jcxz d => jumpRecord .jcxz d

/-! ## Record signals (10_state.md R38) -/

/-- The kind index of 30_encoding.md R90. -/
def JumpKind.index : JumpKind → Nat
  | .je => 4
  | .jl => 5
  | .jle => 6
  | .jb => 7
  | .jbe => 8
  | .jp => 9
  | .jo => 10
  | .js => 11
  | .jnz => 12
  | .jnl => 13
  | .jg => 14
  | .jnb => 15
  | .ja => 16
  | .jnp => 17
  | .jno => 18
  | .jns => 19
  | .loop => 20
  | .loopz => 21
  | .loopnz => 22
  | .jcxz => 23

/-- The `kind` signal, 0..23 (10_state.md R38, 30_encoding.md R90). -/
def Kind.index : Kind → Nat
  | .data .mov => 0
  | .data (.arith .add) => 1
  | .data (.arith .sub) => 2
  | .data (.arith .cmp) => 3
  | .jump j => j.index

/-- The storage index of a register in a `Reg` payload (10_state.md R38); not the index an
instruction's encoding uses. -/
def RegName.storageIndex : RegName → BitVec 3
  | .a => 0
  | .b => 1
  | .c => 2
  | .d => 3
  | .sp => 4
  | .bp => 5
  | .si => 6
  | .di => 7

/-- The register whose halves are named. -/
def HalvedReg.name : HalvedReg → RegName
  | .a => .a
  | .b => .b
  | .c => .c
  | .d => .d

/-- The register of a slice. -/
def Slice.name : Slice → RegName
  | .word n => n
  | .low n => n.name
  | .high n => n.name

/-- The `offset` signal of a slice: 0 is the low byte, 1 the high byte (10_state.md R22). -/
def Slice.offset : Slice → BitVec 1
  | .word _ => 0
  | .low _ => 0
  | .high _ => 1

/-- The `expr` signal of a memory operand: 0..7 in the order of 40_decoder.md R122, 8 = direct. -/
def MemOperand.exprSignal : MemOperand → BitVec 4
  | .based e _ => e.rmBits.setWidth 4
  | .direct _ => 8

/-- The `disp` signal of a memory operand: signed displacement or direct address (10_state.md R38). -/
def MemOperand.dispSignal : MemOperand → Word
  | .based _ d => d
  | .direct a => a

/-- The `tag` signal of an operand: None, Reg, Mem, Imm, Rel. 10_state.md R38 lists the five without
numbers; the model numbers them 0 to 4 in that order [DESIGN CHOICE, safe; notes/assumptions/13.md]. -/
def Operand.tag : Option Operand → BitVec 3
  | none => 0
  | some (.reg _) => 1
  | some (.mem _) => 2
  | some (.imm _) => 3
  | some (.rel _) => 4

/-- The `width` signal of a slice, in bytes: 1 or 2 (10_state.md R22, R38). -/
def Slice.widthSignal (r : Slice) : BitVec 2 :=
  match r.width with
  | .byte => 1
  | .word => 2

/-- The payload that goes with an operand's tag (10_state.md R38). -/
inductive Payload where
  | none
  | reg (name : BitVec 3) (offset : BitVec 1) (width : BitVec 2)
  | mem (expr : BitVec 4) (disp : Word)
  | imm (value : BitVec 32)
  | rel (value : BitVec 32)
  deriving DecidableEq, Repr

/-- The signals of one operand: its tag and its payload (10_state.md R38). -/
structure OperandSignals where
  tag     : BitVec 3
  payload : Payload
  deriving DecidableEq, Repr

/-- The signals of an instruction record but for `fault` (10_state.md R38). -/
structure RecordSignals where
  kind : BitVec 5
  wide : BitVec 1
  size : BitVec 3
  op0  : OperandSignals
  op1  : OperandSignals
  deriving DecidableEq, Repr

/-- The decoder's output of one step (10_state.md R38): the `fault` signal and the record's signals.
With a decode fault no record was built, and R38 does not say what its other signals then hold: there
are none [DESIGN CHOICE, safe; notes/assumptions/15.md]. -/
structure OutputSignals where
  fault  : BitVec 3
  record : Option RecordSignals
  deriving DecidableEq, Repr

/-- The payload of an operand. -/
def Operand.payload : Option Operand → Payload
  | none => .none
  | some (.reg r) => .reg r.name.storageIndex r.offset r.widthSignal
  | some (.mem m) => .mem m.exprSignal m.dispSignal
  | some (.imm v) => .imm v
  | some (.rel v) => .rel v

/-- The signals of an operand; `none` is the tag None. -/
def operandSignals (op : Option Operand) : OperandSignals :=
  { tag := Operand.tag op, payload := Operand.payload op }

/-- The signals of a record. -/
def recordSignals (r : InstRecord) : RecordSignals :=
  { kind := BitVec.ofNat 5 r.kind.index, wide := r.wide.bit, size := BitVec.ofNat 3 r.size,
    op0 := operandSignals (some r.op0), op1 := operandSignals r.op1 }

/-- The `fault` signal the decoder raises (10_state.md R38): 1, 2 or 3. -/
def DecodeFault.signal : DecodeFault → BitVec 3
  | .unknownOpcode _ => 1
  | .malformed _ _ => 2
  | .truncated _ => 3

/-- The decoder's own output: `fault` is 0 exactly when a record was built (10_state.md R38). -/
def Decoded.signals : Decoded → OutputSignals
  | .ok i => { fault := 0, record := some (recordSignals i.record) }
  | .fault f => { fault := f.signal, record := none }

/-! ## The host's word -/

/-- The bytes of a table word, first byte first, zeros after them up to the longest instruction.
spec/opcode_table.json puts byte 0 in the most significant position of a row's bits
(30_encoding.md R96) [DEDUCED, safe; notes/assumptions/6.md]. -/
def tableBytes (nbits w : Nat) : List Byte :=
  (List.range maxInstrBytes).map fun k =>
    if k < nbits / 8 then BitVec.ofNat 8 (w >>> (8 * (nbits / 8 - 1 - k))) else 0

/-- The instruction the decoder reads from a word numbered as spec/opcode_table.json numbers its
rows. -/
def decodeTableWord (nbits w : Nat) : Option Instr :=
  match decode (tableBytes nbits w) with
  | .ok i => some i
  | .fault _ => none

end Sys2Proof
end

