-- ==== Sys2Proof/Machine/State.lean ====
section
/-! DEFINITION. The state of the block as plain data (10_state.md), its reset value (R43), and the
reasons a step of the model can stop. -/

namespace Sys2Proof.Machine

/-- The register file (10_state.md R20): eight 16-bit registers, named as the spec names them. -/
structure Regs where
  a  : Word
  b  : Word
  c  : Word
  d  : Word
  sp : Word
  bp : Word
  si : Word
  di : Word
  deriving DecidableEq, Repr

/-- Data memory (10_state.md R36) in canonical form: addresses strictly rising, no entry equal to what
an unlisted address reads as. -/
abbrev Memory := List Host.Cell

/-- The causes of a fault (60_exceptions.md R240), each with what R246 records for it alone:
the offset of the byte that could not be read, the effective address. -/
inductive FaultCause where
  | unknownOpcode
  | malformedEncoding (detail : MalformedDetail)
  | truncated (missing : Nat)
  | wordAtFFFF (ea : Word)
  deriving DecidableEq, Repr

/-- The fault record (60_exceptions.md R246). For `WordAtFFFF`, of which R246 does not say how many
bytes had been read, `bytesRead` is the whole instruction [DEDUCED, safe; notes/assumptions/9.md]. -/
structure FaultRecord where
  cause     : FaultCause
  ipStart   : Word
  bytesRead : List Byte
  deriving DecidableEq, Repr

/-- `run_state` (10_state.md R37, R44). -/
inductive RunState where
  | running
  | ended
  | faulted (r : FaultRecord)
  deriving DecidableEq, Repr

/-- Everything the spec gives the machine, and the records handed to the printer.
`code` and `params` are fixed for a run (10_state.md R30, R34): the host supplies them and no step
writes them [DEDUCED, safe; notes/assumptions/11.md]. -/
structure State where
  /-- the general registers (10_state.md R20) -/
  regs     : Regs
  /-- the flags word (10_state.md R31) -/
  flags    : Word
  /-- the instruction pointer (10_state.md R27) -/
  ip       : Word
  /-- data memory (10_state.md R36) -/
  mem      : Memory
  /-- the program image CODE; CODE_LEN is its length (10_state.md R30) -/
  code     : List Byte
  /-- MODE, CODE_IN_DATA_MEMORY and HI_BYTE_AT_FFFF (00_scope.md R8) -/
  params   : Params
  /-- the run status (10_state.md R44) -/
  runState : RunState
  /-- the records handed to the printer, newest first (10_state.md R38, 70_reset_and_hazards.md R262;
  notes/assumptions/5.md) -/
  listing  : List InstRecord
  deriving DecidableEq, Repr

/-- Where the model's step stops: a step is taken only in `Running` (10_state.md R44), so there is
none to take in the other two. A fault of the SPEC is not one of these: it is a next state whose
`runState` is `faulted` (60_exceptions.md R241; notes/assumptions/3.md). -/
inductive Fault where
  /-- Raised by `step` when the run has ended. Safe: the machine takes no such step. -/
  | runEnded
  /-- Raised by `step` when the run has faulted, with the record. Safe: the machine takes no such
  step, since `Faulted` is permanent (60_exceptions.md R251). -/
  | runFaulted (r : FaultRecord)
  deriving DecidableEq, Repr

/-- Why the model turns an input away. -/
inductive Refusal where
  /-- Raised by an arm of `exec` for an instruction without a meaning. Safe. No arm raises it now. -/
  | notModelled (mnemonic : String)
  /-- Raised by `step` when CODE_LEN > 65535, which the model rejects
  (93_implementation_defined.md section 1, decision D23; notes/assumptions/4.md). Safe. -/
  | imageTooLong
  deriving DecidableEq, Repr

/-- What a meaning answers. -/
abbrev Result := Host.Outcome State Fault Refusal

/-- The register file right after reset (10_state.md R43). -/
def Regs.reset : Regs :=
  { a := 0x0000, b := 0x0000, c := 0x0000, d := 0x0000,
    sp := 0x0000, bp := 0x0000, si := 0x0000, di := 0x0000 }

/-- The block right after reset (10_state.md R43, 70_reset_and_hazards.md R260) with every open
parameter at its default. CODE has no default: the image is empty, so `run_state` is `Ended`
[DESIGN CHOICE, unsafe; notes/assumptions/1.md]. `State.start` is reset for a given run. -/
def State.reset : State :=
  { regs := Regs.reset, flags := 0x0000, ip := 0x0000, mem := [], code := [],
    params := Params.default, runState := .ended, listing := [] }

end Sys2Proof.Machine
end

