-- ==== Sys2Proof/Machine/Ops.lean ====
section
/-! DEFINITION. The named operations over memory, registers, the instruction pointer and the run
status that every meaning is built from. -/

namespace Sys2Proof.Machine

/-! ## Data memory, one byte at a time -/

/-- The byte at an address; an address that is not listed reads as `unlistedByte`
(10_state.md R43; notes/assumptions/2.md). -/
def Memory.read : Memory → Nat → Byte
  | [], _ => unlistedByte
  | (b, v) :: m, a => if a = b then v else Memory.read m a

/-- Write one byte, keeping the canonical form: writing what an unlisted address reads as removes the
entry. No other byte changes (20_memory.md R53). -/
def Memory.write : Memory → Nat → Byte → Memory
  | [], a, v => if v = unlistedByte then [] else [(a, v)]
  | (b, u) :: m, a, v =>
    if a < b then (if v = unlistedByte then (b, u) :: m else (a, v) :: (b, u) :: m)
    else if a = b then (if v = unlistedByte then m else (a, v) :: m)
    else (b, u) :: Memory.write m a v

/-- The canonical form from a least address on: addresses strictly rising and below `dataMemorySize`,
no entry that an unlisted address reads as. -/
def Memory.wfFrom (least : Nat) : Memory → Bool
  | [] => true
  | (a, v) :: m =>
    decide (least ≤ a) && decide (a < dataMemorySize) && decide (v ≠ unlistedByte) &&
      Memory.wfFrom (a + 1) m

/-- The canonical form of data memory. -/
def Memory.wf (m : Memory) : Bool := Memory.wfFrom 0 m

/-! ## Registers -/

/-- `x[name]` (10_state.md R21). -/
def Regs.get (r : Regs) : RegName → Word
  | .a => r.a
  | .b => r.b
  | .c => r.c
  | .d => r.d
  | .sp => r.sp
  | .bp => r.bp
  | .si => r.si
  | .di => r.di

/-- `x[name] <- v`. -/
def Regs.set (r : Regs) (n : RegName) (v : Word) : Regs :=
  match n with
  | .a => { r with a := v }
  | .b => { r with b := v }
  | .c => { r with c := v }
  | .d => { r with d := v }
  | .sp => { r with sp := v }
  | .bp => { r with bp := v }
  | .si => { r with si := v }
  | .di => { r with di := v }

/-- `x[name]` in a state. -/
def State.reg (s : State) (n : RegName) : Word := s.regs.get n

/-- Write a whole register. -/
def State.setReg (s : State) (n : RegName) (v : Word) : State :=
  { s with regs := s.regs.set n v }

/-- `RegRead` (10_state.md R24). A byte is carried zero-extended in a word
[DESIGN CHOICE, safe; notes/assumptions/10.md]. -/
def readSlice (r : Slice) (s : State) : Word :=
  match r with
  | .word n => s.reg n
  | .low n => zext16 (loByte (s.reg n.name))
  | .high n => zext16 (hiByte (s.reg n.name))

/-- `RegWrite` (10_state.md R25): only the bits of the slice are written. -/
def writeSlice (r : Slice) (v : Word) (s : State) : State :=
  match r with
  | .word n => s.setReg n v
  | .low n => s.setReg n.name (wordOfBytes (loByte v) (hiByte (s.reg n.name)))
  | .high n => s.setReg n.name (wordOfBytes (loByte (s.reg n.name)) (loByte v))

/-! ## Data memory, at an effective address -/

/-- The byte index of an effective address, `zext_20(ea)` (20_memory.md R51). -/
def byteIndex (ea : Word) : Nat := (ea.setWidth 20).toNat

/-- `hi(ea)`, the byte index of a word's second byte; none under `Fault` at 0xFFFF
(20_memory.md R57). -/
def hiIndex (p : HiByteAtFFFF) (ea : Word) : Option Nat :=
  if ea = 0xFFFF then
    match p with
    | .linear => some 0x10000
    | .wrap16 => some 0x00000
    | .fault => none
  else some (byteIndex ea + 1)

/-- `MemRead(ea, n)` (20_memory.md R52), little-endian (R54); none is `WordAtFFFF`. A byte is carried
zero-extended in a word. -/
def memRead (w : Width) (ea : Word) (s : State) : Option Word :=
  match w with
  | .byte => some (zext16 (Memory.read s.mem (byteIndex ea)))
  | .word =>
    match hiIndex s.params.hiByteAtFFFF ea with
    | some h => some (wordOfBytes (Memory.read s.mem (byteIndex ea)) (Memory.read s.mem h))
    | none => none

/-- `MemWrite(ea, n, v)` (20_memory.md R53), little-endian (R54); none is `WordAtFFFF`. -/
def memWrite (w : Width) (ea : Word) (v : Word) (s : State) : Option State :=
  match w with
  | .byte => some { s with mem := Memory.write s.mem (byteIndex ea) (loByte v) }
  | .word =>
    match hiIndex s.params.hiByteAtFFFF ea with
    | some h =>
      some { s with
        mem := Memory.write (Memory.write s.mem (byteIndex ea) (loByte v)) h (hiByte v) }
    | none => none

/-! ## Faults -/

/-- The fault code of 60_exceptions.md R240. -/
def FaultCause.code : FaultCause → Nat
  | .unknownOpcode => 1
  | .malformedEncoding _ => 2
  | .truncated _ => 3
  | .wordAtFFFF _ => 4

/-- The `fault` signal of a run status: 0 for none, else the fault code (10_state.md R38). -/
def RunState.faultSignal : RunState → BitVec 3
  | .running => 0
  | .ended => 0
  | .faulted r => BitVec.ofNat 3 r.cause.code

/-- `raise F(info)`, the one way a fault is taken (60_exceptions.md R241, R250): nothing is saved and
control goes nowhere; `ip` keeps `IP_start`, and `run_state` becomes `Faulted(record)`. There is no
return from it (R251). -/
def raise (r : FaultRecord) (s : State) : State := { s with runState := .faulted r }

/-- The record of a decode fault (60_exceptions.md R246). The missing byte of `Truncated` is the one
after those read, counted without wrap-around (10_state.md R30). -/
def decodeFaultRecord (ipStart : Word) : DecodeFault → FaultRecord
  | .unknownOpcode read => { cause := .unknownOpcode, ipStart := ipStart, bytesRead := read }
  | .malformed d read => { cause := .malformedEncoding d, ipStart := ipStart, bytesRead := read }
  | .truncated read =>
    { cause := .truncated (ipStart.toNat + read.length), ipStart := ipStart, bytesRead := read }

/-- The record of `WordAtFFFF` for an instruction (60_exceptions.md R245, R246). -/
def wordAtFFFFRecord (i : Instr) (ipStart : Word) : FaultRecord :=
  { cause := .wordAtFFFF 0xFFFF, ipStart := ipStart, bytesRead := encode i }

/-- Take `WordAtFFFF` in the step of an instruction (60_exceptions.md R245). -/
def raiseWordAtFFFF (i : Instr) (s : State) : Result := .next (raise (wordAtFFFFRecord i s.ip) s)

/-! ## Instruction fetch -/

/-- `CODE_LEN` (10_state.md R30). -/
def State.codeLen (s : State) : Nat := s.code.length

/-- `code(i)` (10_state.md R30, 20_memory.md R66); none is a read at or past CODE_LEN. Under
CODE_IN_DATA_MEMORY the image gives its length alone [DEDUCED, safe; notes/assumptions/12.md]. -/
def codeByte (s : State) (i : Nat) : Option Byte :=
  if i < s.codeLen then
    if s.params.codeInDataMemory then some (Memory.read s.mem i) else s.code[i]?
  else none

/-- The bytes offered to the decoder: `code(ip + k)` for k = 0..5, as many as there are
(10_state.md R39). -/
def fetchWindow (s : State) : List Byte :=
  (List.range maxInstrBytes).filterMap fun k => codeByte s (s.ip.toNat + k)

/-! ## Instruction pointer, run status, listing -/

/-- `ip <- t` (10_state.md R27). -/
def State.setIp (s : State) (t : Word) : State := { s with ip := t }

/-- `ip <- IP_start + size` (10_state.md R28), modulo 2^16. -/
def advance (i : Instr) (s : State) : State := s.setIp (s.ip + BitVec.ofNat 16 i.size)

/-- `run_state` after a completed step (10_state.md R44). -/
def settle (s : State) : State :=
  if s.codeLen ≤ s.ip.toNat then { s with runState := .ended } else s

/-- Hand a record to the printer (40_decoder.md R132, 70_reset_and_hazards.md R262). -/
def emit (r : InstRecord) (s : State) : State := { s with listing := r :: s.listing }

/-! ## Start of a run -/

/-- Copy an image into memory from an address on (20_memory.md R66). -/
def copyImage (m : Memory) (at_ : Nat) : List Byte → Memory
  | [] => m
  | b :: bs => copyImage (Memory.write m at_ b) (at_ + 1) bs

/-- Reset for a given run (10_state.md R43, 70_reset_and_hazards.md R260, R261): the host supplies
CODE, the parameters and INIT_MEM, which is data memory in canonical form. Under CODE_IN_DATA_MEMORY
the image is copied over it (20_memory.md R66). -/
def State.start (code : List Byte) (params : Params) (initMem : Memory) : State :=
  { regs := Regs.reset, flags := 0x0000, ip := 0x0000,
    mem := if params.codeInDataMemory then copyImage initMem 0 code else initMem,
    code := code, params := params,
    runState := if code.length > 0 then .running else .ended,
    listing := [] }

end Sys2Proof.Machine
end

