-- ==== Sys2Proof/Machine/Operands.lean ====
section
/-! DEFINITION. Operand values and destinations of the execute datapath (40_decoder.md section 5). -/

namespace Sys2Proof.Machine

/-- `trunc_W` of a word (00_scope.md R10): the value of a byte operation is carried zero-extended. -/
def truncW : Width → Word → Word
  | .byte, v => zext16 (loByte v)
  | .word, v => v

/-- The sum of the registers of an addressing expression (30_encoding.md R75), modulo 2^16. -/
def exprSum (e : AddrExpr) (s : State) : Word :=
  match e with
  | .bxsi => s.reg .b + s.reg .si
  | .bxdi => s.reg .b + s.reg .di
  | .bpsi => s.reg .bp + s.reg .si
  | .bpdi => s.reg .bp + s.reg .di
  | .si => s.reg .si
  | .di => s.reg .di
  | .bp => s.reg .bp
  | .bx => s.reg .b

/-- `EA(m)` (40_decoder.md R127). -/
def effectiveAddress (m : MemOperand) (s : State) : Word :=
  match m with
  | .direct a => a
  | .based e disp => exprSum e s + disp

/-- `ReadOp` (40_decoder.md R134, R138); none is `WordAtFFFF`. -/
def readOp (w : Width) (op : Operand) (s : State) : Option Word :=
  match op with
  | .reg r => some (readSlice r s)
  | .mem m => memRead w (effectiveAddress m s) s
  | .imm v => some (truncW w (v.setWidth 16))
  | .rel v => some (v.setWidth 16)

/-- `WriteOp` (40_decoder.md R136); none is `WordAtFFFF`. The address comes from the registers of the
state given, which a meaning passes unchanged from the start of the step. -/
def writeLoc (w : Width) (dst : Loc) (v : Word) (s : State) : Option State :=
  match dst with
  | .reg r => some (writeSlice r v s)
  | .mem m => memWrite w (effectiveAddress m s) v s

end Sys2Proof.Machine
end

