-- ==== Sys2Proof/Machine/Flags.lean ====
section
/-! DEFINITION. The flags word and the conditional flag update unit (10_state.md R31-R33,
40_decoder.md R135). -/

namespace Sys2Proof.Machine

/-- ZF is bit 6 of the flags word (10_state.md R31). -/
def zfBit : Nat := 6

/-- SF is bit 7 of the flags word (10_state.md R31). -/
def sfBit : Nat := 7

/-- The bits of ZF and SF. -/
def flagMask : Word := 0x00C0

/-- ZF of a state. -/
def State.zf (s : State) : Bool := s.flags.getLsbD zfBit

/-- SF of a state. -/
def State.sf (s : State) : Bool := s.flags.getLsbD sfBit

/-- "ZF = result==0" (40_decoder.md R135). -/
def resultZero (r : Word) : Bool := r == 0

/-- "SF = high bit of result set", at the operation width (40_decoder.md R135). -/
def resultSign : Width → Word → Bool
  | .byte, r => r.getLsbD 7
  | .word, r => r.getLsbD 15

/-- The flags word with ZF and SF written and every other bit as it was (40_decoder.md R135). -/
def withZfSf (flags : Word) (z n : Bool) : Word :=
  (flags &&& ~~~flagMask) ||| (if z then 0x0040 else 0) ||| (if n then 0x0080 else 0)

/-- `FlagUpdate(r, W)` (40_decoder.md R135). -/
def flagUpdate (w : Width) (r : Word) (s : State) : State :=
  { s with flags := withZfSf s.flags (resultZero r) (resultSign w r) }

end Sys2Proof.Machine
end

