-- ==== Sys2Proof/Machine/Arith.lean ====
section
/-! DEFINITION. The add, sub and cmp family (42_arith.md). -/

namespace Sys2Proof.Machine

/-- The result of an arithmetic kind at its width (42_arith.md R179): modular, no carry kept. -/
def arithResult (a : Arith) (w : Width) (d v : Word) : Word :=
  match a with
  | .add => truncW w (d + v)
  | .sub => truncW w (d - v)
  | .cmp => truncW w (d - v)

/-- What add and sub do: read destination and source, write the result, then ZF and SF, then `ip`
(42_arith.md R170, R173). -/
def updateOp (a : Arith) (i : Instr) (w : Width) (dst : Loc) (src : Operand) (s : State) : Result :=
  match readOp w dst.operand s, readOp w src s with
  | some d, some v =>
    match writeLoc w dst (arithResult a w d v) s with
    | none => raiseWordAtFFFF i s
    | some t => .next (advance i (flagUpdate w (arithResult a w d v) t))
  | _, _ => raiseWordAtFFFF i s

/-- What cmp does: the difference is a scratch value that only ZF and SF are taken from
(42_arith.md R176). -/
def compareOp (i : Instr) (w : Width) (dst : Loc) (src : Operand) (s : State) : Result :=
  match readOp w dst.operand s, readOp w src s with
  | some d, some v => .next (advance i (flagUpdate w (arithResult .cmp w d v) s))
  | _, _ => raiseWordAtFFFF i s

/-- 42_arith.md R170. -/
def execAddRmReg (dir : Dir) (w : Width) (reg : Slice) (rm : Rm) (s : State) : Result :=
  updateOp .add (.addRmReg dir w reg rm) w (rmRegDst dir reg rm) (rmRegSrc dir reg rm) s

/-- 42_arith.md R171. -/
def execAddGrpImm (rm : Rm) (imm : GrpImm) (s : State) : Result :=
  updateOp .add (.addGrpImm rm imm) imm.width rm.loc (.imm imm.value) s

/-- 42_arith.md R172. -/
def execAddAccImm (imm : Imm) (s : State) : Result :=
  updateOp .add (.addAccImm imm) imm.width (.reg (accumulator imm.width)) (.imm imm.value) s

/-- 42_arith.md R173. -/
def execSubRmReg (dir : Dir) (w : Width) (reg : Slice) (rm : Rm) (s : State) : Result :=
  updateOp .sub (.subRmReg dir w reg rm) w (rmRegDst dir reg rm) (rmRegSrc dir reg rm) s

/-- 42_arith.md R174. -/
def execSubGrpImm (rm : Rm) (imm : GrpImm) (s : State) : Result :=
  updateOp .sub (.subGrpImm rm imm) imm.width rm.loc (.imm imm.value) s

/-- 42_arith.md R175. -/
def execSubAccImm (imm : Imm) (s : State) : Result :=
  updateOp .sub (.subAccImm imm) imm.width (.reg (accumulator imm.width)) (.imm imm.value) s

/-- 42_arith.md R176. -/
def execCmpRmReg (dir : Dir) (w : Width) (reg : Slice) (rm : Rm) (s : State) : Result :=
  compareOp (.cmpRmReg dir w reg rm) w (rmRegDst dir reg rm) (rmRegSrc dir reg rm) s

/-- 42_arith.md R177. -/
def execCmpGrpImm (rm : Rm) (imm : GrpImm) (s : State) : Result :=
  compareOp (.cmpGrpImm rm imm) imm.width rm.loc (.imm imm.value) s

/-- 42_arith.md R178. -/
def execCmpAccImm (imm : Imm) (s : State) : Result :=
  compareOp (.cmpAccImm imm) imm.width (.reg (accumulator imm.width)) (.imm imm.value) s

end Sys2Proof.Machine
end

