-- ==== Sys2Proof/Machine/Jump.lean ====
section
/-! DEFINITION. The jump and loop family (43_jumps.md): jnz is executed, the other nineteen kinds are
decoded and only advance `ip` (conflict C5). -/

namespace Sys2Proof.Machine

/-- What a kind that is decoded but not executed does: `ip <- IP_start + 2`, and nothing else
(43_jumps.md R201, decision D21). -/
def fallThrough (i : Instr) (s : State) : Result := .next (advance i s)

/-- The target of a taken jump, `trunc_16(IP_start + v)` with `v = sext_8(disp8) + 2`
(43_jumps.md R200). -/
def jumpTarget (disp : Byte) (s : State) : Word := s.ip + (relValue disp).setWidth 16

/-- 43_jumps.md R201. -/
def execJe (disp : Byte) (s : State) : Result := fallThrough (.je disp) s

/-- 43_jumps.md R202. -/
def execJl (disp : Byte) (s : State) : Result := fallThrough (.jl disp) s

/-- 43_jumps.md R203. -/
def execJle (disp : Byte) (s : State) : Result := fallThrough (.jle disp) s

/-- 43_jumps.md R204. -/
def execJb (disp : Byte) (s : State) : Result := fallThrough (.jb disp) s

/-- 43_jumps.md R205. -/
def execJbe (disp : Byte) (s : State) : Result := fallThrough (.jbe disp) s

/-- 43_jumps.md R206. -/
def execJp (disp : Byte) (s : State) : Result := fallThrough (.jp disp) s

/-- 43_jumps.md R207. -/
def execJo (disp : Byte) (s : State) : Result := fallThrough (.jo disp) s

/-- 43_jumps.md R208. -/
def execJs (disp : Byte) (s : State) : Result := fallThrough (.js disp) s

/-- 43_jumps.md R209: the one executed branch, taken when ZF is clear. -/
def execJnz (disp : Byte) (s : State) : Result :=
  if s.zf = false then .next (s.setIp (jumpTarget disp s)) else .next (advance (.jnz disp) s)

/-- 43_jumps.md R210. -/
def execJnl (disp : Byte) (s : State) : Result := fallThrough (.jnl disp) s

/-- 43_jumps.md R211. -/
def execJg (disp : Byte) (s : State) : Result := fallThrough (.jg disp) s

/-- 43_jumps.md R212. -/
def execJnb (disp : Byte) (s : State) : Result := fallThrough (.jnb disp) s

/-- 43_jumps.md R213. -/
def execJa (disp : Byte) (s : State) : Result := fallThrough (.ja disp) s

/-- 43_jumps.md R214. -/
def execJnp (disp : Byte) (s : State) : Result := fallThrough (.jnp disp) s

/-- 43_jumps.md R215. -/
def execJno (disp : Byte) (s : State) : Result := fallThrough (.jno disp) s

/-- 43_jumps.md R216. -/
def execJns (disp : Byte) (s : State) : Result := fallThrough (.jns disp) s

/-- 43_jumps.md R217. -/
def execLoop (disp : Byte) (s : State) : Result := fallThrough (.loop disp) s

/-- 43_jumps.md R218. -/
def execLoopz (disp : Byte) (s : State) : Result := fallThrough (.loopz disp) s

/-- 43_jumps.md R219. -/
def execLoopnz (disp : Byte) (s : State) : Result := fallThrough (.loopnz disp) s

/-- 43_jumps.md R220. -/
def execJcxz (disp : Byte) (s : State) : Result := fallThrough (.jcxz disp) s

end Sys2Proof.Machine
end

