-- ==== Sys2Proof/Machine/Mov.lean ====
section
/-! DEFINITION. The mov family (41_mov.md): copy source into destination, no flag written. -/

namespace Sys2Proof.Machine

/-- What every mov does: `v <- ReadOp(op1, W); WriteOp(op0, v, W); ip <- IP_start + size`
(41_mov.md R150). Both addresses come from the registers at the start of the step. -/
def moveOp (i : Instr) (w : Width) (dst : Loc) (src : Operand) (s : State) : Result :=
  match readOp w src s with
  | none => raiseWordAtFFFF i s
  | some v =>
    match writeLoc w dst v s with
    | none => raiseWordAtFFFF i s
    | some t => .next (advance i t)

/-- 41_mov.md R150. -/
def execMovRmReg (dir : Dir) (w : Width) (reg : Slice) (rm : Rm) (s : State) : Result :=
  moveOp (.movRmReg dir w reg rm) w (rmRegDst dir reg rm) (rmRegSrc dir reg rm) s

/-- 41_mov.md R151. -/
def execMovImmRm (m : MemForm) (imm : Imm) (s : State) : Result :=
  moveOp (.movImmRm m imm) imm.width (.mem m.operand) (.imm imm.value) s

/-- 41_mov.md R152. -/
def execMovImmReg (reg : Slice) (imm : Imm) (s : State) : Result :=
  moveOp (.movImmReg reg imm) imm.width (.reg reg) (.imm imm.value) s

/-- 41_mov.md R153. -/
def execMovMemToAcc (w : Width) (addr : Word) (s : State) : Result :=
  moveOp (.movMemToAcc w addr) w (.reg (accumulator w)) (.mem (.direct addr)) s

/-- 41_mov.md R154. -/
def execMovAccToMem (w : Width) (addr : Word) (s : State) : Result :=
  moveOp (.movAccToMem w addr) w (.mem (.direct addr)) (.reg (accumulator w)) s

end Sys2Proof.Machine
end

