-- ==== Sys2Proof/Machine/Dispatch.lean ====
section
/-! DEFINITION. One arm for each instruction, each a call of that instruction's meaning. -/

namespace Sys2Proof.Machine

def exec (i : Instr) (s : State) : Host.Outcome State Fault Refusal :=
  match i with
  | .movRmReg dir w reg rm => Sys2Proof.Machine.execMovRmReg dir w reg rm s
  | .movImmRm m imm => Sys2Proof.Machine.execMovImmRm m imm s
  | .movImmReg reg imm => Sys2Proof.Machine.execMovImmReg reg imm s
  | .movMemToAcc w addr => Sys2Proof.Machine.execMovMemToAcc w addr s
  | .movAccToMem w addr => Sys2Proof.Machine.execMovAccToMem w addr s
  | .addRmReg dir w reg rm => Sys2Proof.Machine.execAddRmReg dir w reg rm s
  | .addGrpImm rm imm => Sys2Proof.Machine.execAddGrpImm rm imm s
  | .addAccImm imm => Sys2Proof.Machine.execAddAccImm imm s
  | .subRmReg dir w reg rm => Sys2Proof.Machine.execSubRmReg dir w reg rm s
  | .subGrpImm rm imm => Sys2Proof.Machine.execSubGrpImm rm imm s
  | .subAccImm imm => Sys2Proof.Machine.execSubAccImm imm s
  | .cmpRmReg dir w reg rm => Sys2Proof.Machine.execCmpRmReg dir w reg rm s
  | .cmpGrpImm rm imm => Sys2Proof.Machine.execCmpGrpImm rm imm s
  | .cmpAccImm imm => Sys2Proof.Machine.execCmpAccImm imm s
  | .je disp => Sys2Proof.Machine.execJe disp s
  | .jl disp => Sys2Proof.Machine.execJl disp s
  | .jle disp => Sys2Proof.Machine.execJle disp s
  | .jb disp => Sys2Proof.Machine.execJb disp s
  | .jbe disp => Sys2Proof.Machine.execJbe disp s
  | .jp disp => Sys2Proof.Machine.execJp disp s
  | .jo disp => Sys2Proof.Machine.execJo disp s
  | .js disp => Sys2Proof.Machine.execJs disp s
  | .jnz disp => Sys2Proof.Machine.execJnz disp s
  | .jnl disp => Sys2Proof.Machine.execJnl disp s
  | .jg disp => Sys2Proof.Machine.execJg disp s
  | .jnb disp => Sys2Proof.Machine.execJnb disp s
  | .ja disp => Sys2Proof.Machine.execJa disp s
  | .jnp disp => Sys2Proof.Machine.execJnp disp s
  | .jno disp => Sys2Proof.Machine.execJno disp s
  | .jns disp => Sys2Proof.Machine.execJns disp s
  | .loop disp => Sys2Proof.Machine.execLoop disp s
  | .loopz disp => Sys2Proof.Machine.execLoopz disp s
  | .loopnz disp => Sys2Proof.Machine.execLoopnz disp s
  | .jcxz disp => Sys2Proof.Machine.execJcxz disp s

end Sys2Proof.Machine
end

