-- ==== Sys2Proof/Machine/Cycle.lean ====
section
/-! DEFINITION. What a step adds around an instruction's meaning (40_decoder.md R132, R133): the run
status after it, the record handed to the printer, and the mode. -/

namespace Sys2Proof.Machine

/-- The end of a step whose instruction part answered `t` (40_decoder.md R133, 10_state.md R44): a
completed step hands on its record and settles the run status; a faulted one changes nothing more
(60_exceptions.md R248; notes/assumptions/5.md). -/
def complete (i : Instr) (t : State) : State :=
  match t.runState with
  | .faulted _ => t
  | .running => settle (emit i.record t)
  | .ended => settle (emit i.record t)

/-- An Execute-mode step of a decoded instruction (40_decoder.md R133). -/
def executeStep (i : Instr) (s : State) : Result :=
  match exec i s with
  | .next t => .next (complete i t)
  | .fault f => .fault f
  | .refused r => .refused r

/-- A Disassemble-mode step of a decoded instruction (40_decoder.md R132): only `ip` moves, by the
instruction's size, and the record goes to the printer. -/
def disassembleStep (i : Instr) (s : State) : Result := .next (complete i (advance i s))

/-- The `fault` signal of what an instruction's meaning answered (10_state.md R38). -/
def answerFaultSignal : Result → BitVec 3
  | .next t => t.runState.faultSignal
  | .fault _ => 0
  | .refused _ => 0

/-- The output signals of the step that a running state takes (10_state.md R38): the decoder's, on
which the execute datapath raises 4 in Execute mode for a `WordAtFFFF` of the decoded instruction. -/
def stepSignals (s : State) : OutputSignals :=
  let out := (decode (fetchWindow s)).signals
  match decode (fetchWindow s), s.params.mode with
  | .ok i, .execute => { out with fault := answerFaultSignal (exec i s) }
  | _, _ => out

/-- One step in `Running`: build the instruction at `ip` and take it, or raise the decode fault
(40_decoder.md R132, R133). -/
def runningStep (s : State) : Result :=
  match decode (fetchWindow s) with
  | .fault f => .next (raise (decodeFaultRecord s.ip f) s)
  | .ok i =>
    match s.params.mode with
    | .disassemble => disassembleStep i s
    | .execute => executeStep i s

/-- One step of the block (10_state.md R44, 70_reset_and_hazards.md R262): taken only in `Running`, and
never on an image of more than 65535 bytes (decision D23; notes/assumptions/4.md). -/
def takeStep (s : State) : Result :=
  match s.runState with
  | .ended => .fault .runEnded
  | .faulted r => .fault (.runFaulted r)
  | .running => if s.codeLen ≤ maxCodeLen then runningStep s else .refused .imageTooLong

/-- A list with bytes stored over it from an offset on; zeros fill a gap. -/
def overlay (old : List Byte) (at_ : Nat) (bs : List Byte) : List Byte :=
  old.take at_ ++ List.replicate (at_ - old.length) 0 ++ bs ++ old.drop (at_ + bs.length)

/-- The state with an instruction stored where the next step fetches: in the image at `ip` (and in
data memory there under CODE_IN_DATA_MEMORY), in Execute mode with the run going
(notes/assumptions/7.md). An image is cut at 65535 bytes. -/
def placeAtIp (s : State) (bs : List Byte) : State :=
  { s with
    code := (overlay s.code s.ip.toNat bs).take maxCodeLen
    mem := if s.params.codeInDataMemory then copyImage s.mem s.ip.toNat bs else s.mem
    params := { s.params with mode := .execute }
    runState := .running }

end Sys2Proof.Machine
end

