-- ==== Sys2Proof/Machine/Step.lean ====
section
/-! DEFINITION. The step of the machine, and the host's way of placing one instruction. -/

namespace Sys2Proof.Machine

/-- One step of the block. -/
def step (s : State) : Host.Outcome State Fault Refusal := takeStep s

/-- `s` with the instruction of a table word stored where `step` fetches its next instruction; the
bits above `nbits` are zero, up to the longest instruction. -/
def State.withFetchWord (s : State) (nbits w : Nat) : State := placeAtIp s (tableBytes nbits w)

end Sys2Proof.Machine
end

