-- ==== Sys2Proof/Machine/Printer.lean ====
section
/-! DEFINITION. The disassembly printer (30_encoding.md R88-R95): the text of a record, and the listing
of a run. -/

namespace Sys2Proof.Machine

/-- The decimal digits of a number, most significant first; `fuel` bounds their count. -/
def digits : Nat → Nat → List Char → List Char
  | 0, _, acc => acc
  | fuel + 1, n, acc =>
    if n < 10 then Char.ofNat (48 + n) :: acc
    else digits fuel (n / 10) (Char.ofNat (48 + n % 10) :: acc)

/-- A number below 10^10 in decimal (30_encoding.md R92, R93). -/
def natText (n : Nat) : String := String.ofList (digits 10 n [])

/-- A number in signed decimal: no sign when it is not negative (30_encoding.md R93). -/
def intText (v : Int) : String :=
  if v < 0 then "-" ++ natText v.natAbs else natText v.natAbs

/-- A displacement: omitted when 0, else its sign and decimal magnitude (30_encoding.md R92). -/
def dispText (d : Word) : String :=
  if d = 0 then "" else if d.toInt < 0 then intText d.toInt else "+" ++ natText d.toNat

/-- The text of a jump operand, `$+N` or `$-M` (30_encoding.md R94). -/
def relText (v : BitVec 32) : String :=
  if v.toInt < 0 then "$" ++ intText v.toInt else "$+" ++ natText v.toNat

/-- The spelling of a slice (30_encoding.md R91). -/
def sliceText : Slice → String
  | .word .a => "ax"
  | .word .b => "bx"
  | .word .c => "cx"
  | .word .d => "dx"
  | .word .sp => "sp"
  | .word .bp => "bp"
  | .word .si => "si"
  | .word .di => "di"
  | .low .a => "al"
  | .low .b => "bl"
  | .low .c => "cl"
  | .low .d => "dl"
  | .high .a => "ah"
  | .high .b => "bh"
  | .high .c => "ch"
  | .high .d => "dh"

/-- The spelling of an addressing expression (30_encoding.md R92). -/
def exprText : AddrExpr → String
  | .bxsi => "bx+si"
  | .bxdi => "bx+di"
  | .bpsi => "bp+si"
  | .bpdi => "bp+di"
  | .si => "si"
  | .di => "di"
  | .bp => "bp"
  | .bx => "bx"

/-- The text of a memory operand (30_encoding.md R92). -/
def memText : MemOperand → String
  | .direct a => "[" ++ natText a.toNat ++ "]"
  | .based e d => "[" ++ exprText e ++ dispText d ++ "]"

/-- The size qualifier (30_encoding.md R93). -/
def qualifierText : Width → String
  | .byte => "byte "
  | .word => "word "

/-- The text of an operand; `qualify` says whether an immediate carries the size qualifier. -/
def operandText (qualify : Bool) (w : Width) : Operand → String
  | .reg r => sliceText r
  | .mem m => memText m
  | .imm v => (if qualify then qualifierText w else "") ++ intText v.toInt
  | .rel v => relText v

/-- The qualifier is written exactly when one operand is Memory and the other Immediate
(30_encoding.md R93). -/
def needsQualifier : Operand → Option Operand → Bool
  | .mem _, some (.imm _) => true
  | .imm _, some (.mem _) => true
  | _, _ => false

/-- The mnemonic of a jump or loop kind (30_encoding.md R90). -/
def jumpText : JumpKind → String
  | .je => "je"
  | .jl => "jl"
  | .jle => "jle"
  | .jb => "jb"
  | .jbe => "jbe"
  | .jp => "jp"
  | .jo => "jo"
  | .js => "js"
  | .jnz => "jnz"
  | .jnl => "jnl"
  | .jg => "jg"
  | .jnb => "jnb"
  | .ja => "ja"
  | .jnp => "jnp"
  | .jno => "jno"
  | .jns => "jns"
  | .loop => "loop"
  | .loopz => "loopz"
  | .loopnz => "loopnz"
  | .jcxz => "jcxz"

/-- The twenty-four mnemonics (30_encoding.md R90). -/
def kindText : Kind → String
  | .data .mov => "mov"
  | .data (.arith .add) => "add"
  | .data (.arith .sub) => "sub"
  | .data (.arith .cmp) => "cmp"
  | .jump j => jumpText j

/-- The other spellings an assembler accepts for a kind (30_encoding.md R95); the printer writes
none of them. -/
def otherSpellings : JumpKind → List String
  | .je => ["jz"]
  | .jl => ["jnge"]
  | .jle => ["jng"]
  | .jb => ["jnae", "jc"]
  | .jbe => ["jna"]
  | .jp => ["jpe"]
  | .jo => []
  | .js => []
  | .jnz => ["jne"]
  | .jnl => ["jge"]
  | .jg => ["jnle"]
  | .jnb => ["jae", "jnc"]
  | .ja => ["jnbe"]
  | .jnp => ["jpo"]
  | .jno => []
  | .jns => []
  | .loop => []
  | .loopz => ["loope"]
  | .loopnz => ["loopne"]
  | .jcxz => []

/-- An instruction line (30_encoding.md R89). -/
def lineText (r : InstRecord) : String :=
  let qualify := needsQualifier r.op0 r.op1
  kindText r.kind ++ " " ++ operandText qualify r.wide r.op0 ++
    match r.op1 with
    | none => ""
    | some op => ", " ++ operandText qualify r.wide op

/-- The header line (30_encoding.md R88). -/
def headerText : String := "bits 16"

/-- The lines of the disassembly text of a run so far, without terminators [DESIGN CHOICE, safe;
notes/assumptions/14.md] (30_encoding.md R88, 70_reset_and_hazards.md R262). -/
def listingLines (s : State) : List String := headerText :: s.listing.reverse.map lineText

end Sys2Proof.Machine
end

