-- ==== Sys2Proof/Safety.lean ====
section
/-! DEFINITION. What counts as a good state of the block, and as a run without a fault. -/

namespace Sys2Proof.Machine

/-- Only ZF and SF of the flags word are ever set (10_state.md R31). -/
abbrev flagsOk (f : Word) : Prop := f &&& ~~~flagMask = 0

/-- `run_state` agrees with `ip` (10_state.md R44): the run is going only inside the image, it ended
outside it, and a fault record names the `ip` that was kept (60_exceptions.md R241). -/
abbrev statusOk (s : State) : Prop :=
  match s.runState with
  | .running => s.ip.toNat < s.codeLen
  | .ended => s.codeLen ≤ s.ip.toNat
  | .faulted r => r.ipStart = s.ip

/-- The invariant of the block: memory in canonical form within 2^20 bytes, an image of at most 65535
bytes, unmodelled flags 0, and a run status that agrees with `ip`. -/
abbrev State.Inv (s : State) : Prop :=
  Memory.wf s.mem = true ∧ s.codeLen ≤ maxCodeLen ∧ flagsOk s.flags ∧ statusOk s

/-- A state of a run that has met no fault (60_exceptions.md R240). -/
def State.safe (s : State) : Bool :=
  match s.runState with
  | .faulted _ => false
  | .running => true
  | .ended => true

/-- The summed lengths of the instructions listed so far (40_decoder.md R132). -/
def State.listedBytes (s : State) : Nat := (s.listing.map (·.size)).sum

end Sys2Proof.Machine
end

