-- ==== Sys2Proof/Certificates/Slice0/Obligations.lean ====
section
/-! DEFINITION. The statements about the block, for the provers. Each docstring names the rule of spec/
that it formalises or the sections it rests on. -/

open Sys2Proof Sys2Proof.Machine

namespace Sys2Proof.Statements

/-- The operation width `W` in bits (00_scope.md R13). -/
def bits : Width → Nat
  | .byte => 8
  | .word => 16

/-- The memory operand of a record, if it has one. -/
def memOperand (r : InstRecord) : Option MemOperand :=
  match r.op0, r.op1 with
  | .mem m, _ => some m
  | _, some (.mem m) => some m
  | _, _ => none

/-- The instruction accesses a word at effective address 0xFFFF under `HI_BYTE_AT_FFFF = Fault`
(60_exceptions.md R245). -/
def wordAtFFFF (i : Instr) (s : State) : Bool :=
  match memOperand i.record with
  | none => false
  | some m =>
    decide (s.params.hiByteAtFFFF = .fault) && decide (i.record.wide = .word) &&
      decide (effectiveAddress m s = 0xFFFF)

/-- The byte indexes a store of width `w` to a memory operand writes, computed as the meanings do. -/
def storedBytes (w : Width) (m : MemOperand) (s : State) : List Nat :=
  byteIndex (effectiveAddress m s) ::
    match w with
    | .byte => []
    | .word => (hiIndex s.params.hiByteAtFFFF (effectiveAddress m s)).toList

/-- Nothing but a destination (and `flags`, `ip`, `runState`) differs between two states: every other
register, the other half of a byte destination's register, every byte of memory outside the stored
bytes, the image, the parameters, the listing. -/
def unchangedBut (w : Width) (dst : Option Loc) (s t : State) : Prop :=
  (∀ n, (∀ r, dst = some (.reg r) → n ≠ r.name) → t.reg n = s.reg n) ∧
  (∀ n, dst = some (.reg (.low n)) → hiByte (t.reg n.name) = hiByte (s.reg n.name)) ∧
  (∀ n, dst = some (.reg (.high n)) → loByte (t.reg n.name) = loByte (s.reg n.name)) ∧
  (∀ a, (∀ m, dst = some (.mem m) → a ∉ storedBytes w m s) →
    Memory.read t.mem a = Memory.read s.mem a) ∧
  t.code = s.code ∧ t.params = s.params ∧ t.listing = s.listing

/-- Every flags bit but ZF and SF is unchanged. -/
def otherFlagsUnchanged (s t : State) : Prop :=
  ∀ k, k ≠ 6 → k ≠ 7 → t.flags.getLsbD k = s.flags.getLsbD k

/-- The run status is unchanged, or the step raised `WordAtFFFF` and wrote nothing else. -/
def statusKept (i : Instr) (s t : State) : Prop :=
  t.runState = s.runState ∨ t = raise (wordAtFFFFRecord i s.ip) s

/-- A mov of `src` to `dst` completes: `v <- ReadOp(op1, W); WriteOp(op0, v, W); ip <- IP_start + size`. -/
def movCompletes (i : Instr) (w : Width) (dst : Loc) (src : Operand) (s : State) : Prop :=
  wordAtFFFF i s = false →
    ∃ v t, readOp w src s = some v ∧ writeLoc w dst v s = some t ∧
      exec i s = .next (t.setIp (s.ip + BitVec.ofNat 16 i.size))

/-- An add or sub with result `f d v` completes: the result is written and ZF, SF follow it. -/
def updateCompletes (f : Word → Word → Word) (i : Instr) (w : Width) (dst : Loc) (src : Operand)
    (s : State) : Prop :=
  wordAtFFFF i s = false →
    ∃ d v t, readOp w dst.operand s = some d ∧ readOp w src s = some v ∧
      writeLoc w dst (truncW w (f d v)) s = some t ∧
      exec i s = .next ((flagUpdate w (truncW w (f d v)) t).setIp (s.ip + BitVec.ofNat 16 i.size))

/-- A cmp completes: ZF and SF follow the difference, and nothing but them and `ip` is written. -/
def compareCompletes (i : Instr) (w : Width) (dst : Loc) (src : Operand) (s : State) : Prop :=
  wordAtFFFF i s = false →
    ∃ d v, readOp w dst.operand s = some d ∧ readOp w src s = some v ∧
      exec i s = .next ((flagUpdate w (truncW w (d - v)) s).setIp (s.ip + BitVec.ofNat 16 i.size))

/-- The 68 first bytes of 30_encoding.md R81. -/
def admittedFirstByte (b : Byte) : Bool :=
  let n := b.toNat
  decide (n ≤ 0x05) || (decide (0x28 ≤ n) && decide (n ≤ 0x2D)) ||
    (decide (0x38 ≤ n) && decide (n ≤ 0x3D)) || (decide (0x70 ≤ n) && decide (n ≤ 0x7F)) ||
    (decide (0x80 ≤ n) && decide (n ≤ 0x83)) || (decide (0x88 ≤ n) && decide (n ≤ 0x8B)) ||
    (decide (0xA0 ≤ n) && decide (n ≤ 0xA3)) || (decide (0xB0 ≤ n) && decide (n ≤ 0xBF)) ||
    (decide (0xC6 ≤ n) && decide (n ≤ 0xC7)) || (decide (0xE0 ≤ n) && decide (n ≤ 0xE3))

/-- `mod` of a ModRM-style byte, by arithmetic (30_encoding.md R72). -/
def modField (b1 : Byte) : Nat := b1.toNat / 64

/-- `reg` of a ModRM-style byte, by arithmetic (30_encoding.md R72). -/
def regField (b1 : Byte) : Nat := b1.toNat / 8 % 8

/-- An extra opcode that selects add, sub or cmp (30_encoding.md R83). -/
def knownExtra (n : Nat) : Bool := decide (n = 0) || decide (n = 5) || decide (n = 7)

/-- The state with SF set to a given value. -/
def withSf (b : Bool) (s : State) : State :=
  { s with flags := if b then s.flags ||| 0x0080 else s.flags &&& ~~~0x0080 }

/-- The line the printer writes for the instruction some bytes decode to. -/
def printed (bs : List Byte) : Option String :=
  match decode bs with
  | .ok i => some (lineText i.record)
  | .fault _ => none

end Sys2Proof.Statements

open Sys2Proof.Statements

/-! ## Encoding -/

/-- A field of a byte (40_decoder.md, section 1), and the classifier's top bits, which are the spec's own
inference (R111: "derived: from rule R110"). -/
def Obligations.BitFieldExtractor : Prop :=
  (∀ (b : Byte) (offset n : Nat), 1 ≤ n → offset + n ≤ 8 →
    (field b offset n).toNat = b.toNat / 2 ^ offset % 2 ^ n) ∧
  (∀ (b : Byte) (k : Nat), 1 ≤ k → k ≤ 8 → top b k = b.toNat / 2 ^ (8 - k))

/-- 40_decoder.md R113: the longest width whose top bits are in the table wins, whatever shorter
widths hold, and no match at any of the five widths is no match. -/
def Obligations.LongestWidthWins : Prop :=
  ∀ b : Byte,
    (∀ e, classify b = some e ↔
      ∃ k ∈ [8, 7, 6, 5, 4], tableEntry k (top b k) = some e ∧
        ∀ k' ∈ [8, 7, 6, 5, 4], k < k' → tableEntry k' (top b k') = none) ∧
    (classify b = none ↔ ∀ k ∈ [8, 7, 6, 5, 4], tableEntry k (top b k) = none)

/-- No byte matches entries at two widths, and exactly the 68 listed first bytes match one. The spec
marks this as its own inference (30_encoding.md R81: "derived: from rule R80 by enumerating all 256
bytes"). -/
def Obligations.OpcodeTableIsPrefixFree : Prop :=
  (∀ b : Byte, ∀ k ∈ [8, 7, 6, 5, 4], ∀ k' ∈ [8, 7, 6, 5, 4],
    (tableEntry k (top b k)).isSome = true → (tableEntry k' (top b k')).isSome = true → k = k') ∧
  (∀ b : Byte, (classify b).isSome = admittedFirstByte b) ∧
  (List.range 256).countP (fun n => (classify (BitVec.ofNat 8 n)).isSome) = 68

/-- 40_decoder.md R120: the register index table, at both widths. -/
def Obligations.RegisterIndexTable : Prop :=
  regOperand 0b000 .word = .word .a ∧ regOperand 0b001 .word = .word .c ∧
  regOperand 0b010 .word = .word .d ∧ regOperand 0b011 .word = .word .b ∧
  regOperand 0b100 .word = .word .sp ∧ regOperand 0b101 .word = .word .bp ∧
  regOperand 0b110 .word = .word .si ∧ regOperand 0b111 .word = .word .di ∧
  regOperand 0b000 .byte = .low .a ∧ regOperand 0b001 .byte = .low .c ∧
  regOperand 0b010 .byte = .low .d ∧ regOperand 0b011 .byte = .low .b ∧
  regOperand 0b100 .byte = .high .a ∧ regOperand 0b101 .byte = .high .c ∧
  regOperand 0b110 .byte = .high .d ∧ regOperand 0b111 .byte = .high .b

/-- Words written out from the encodings of 30_encoding.md R73 and the examples of 41_mov.md,
42_arith.md and 43_jumps.md decode to the instructions they stand for: one of every form. -/
def Obligations.ExampleWordsDecode : Prop :=
  decode [0x8B, 0x40, 0xFB] = .ok (.movRmReg .toReg .word (.word .a) (.mem (.disp8 .bxsi 0xFB))) ∧
  decode [0xC6, 0x47, 0x02, 0x07] = .ok (.movImmRm (.disp8 .bx 0x02) (.byte 0x07)) ∧
  decode [0xB8, 0x05, 0x00] = .ok (.movImmReg (.word .a) (.word 5)) ∧
  decode [0xA1, 0x00, 0x20] = .ok (.movMemToAcc .word 0x2000) ∧
  decode [0xA3, 0x00, 0x20] = .ok (.movAccToMem .word 0x2000) ∧
  decode [0x01, 0x07] = .ok (.addRmReg .toRm .word (.word .a) (.mem (.noDisp .bx))) ∧
  decode [0x83, 0xC0, 0x03] = .ok (.addGrpImm (.reg (.word .a)) (.sext 0x03)) ∧
  decode [0x05, 0x03, 0x00] = .ok (.addAccImm (.word 3)) ∧
  decode [0x28, 0xE0] = .ok (.subRmReg .toRm .byte (.high .a) (.reg (.low .a))) ∧
  decode [0x81, 0xE9, 0x00, 0x80] = .ok (.subGrpImm (.reg (.word .c)) (.word 0x8000)) ∧
  decode [0x2C, 0x01] = .ok (.subAccImm (.byte 0x01)) ∧
  decode [0x3B, 0xC3] = .ok (.cmpRmReg .toReg .word (.word .a) (.reg (.word .b))) ∧
  decode [0x80, 0x3E, 0x00, 0x20, 0x80] = .ok (.cmpGrpImm (.mem (.direct 0x2000)) (.byte 0x80)) ∧
  decode [0x3C, 0x46] = .ok (.cmpAccImm (.byte 0x46)) ∧
  decode [0x75, 0xFB] = .ok (.jnz 0xFB) ∧
  decode [0xE2, 0xFE] = .ok (.loop 0xFE)

/-- 20_memory.md R55: immediates, displacements and direct addresses have their low byte first. -/
def Obligations.StreamFieldsLowByteFirst : Prop :=
  ∀ lo hi rest, ∃ v : Word, v.toNat = hi.toNat * 256 + lo.toNat ∧
    decode (0xB8 :: lo :: hi :: rest) = .ok (.movImmReg (.word .a) (.word v)) ∧
    decode (0x81 :: 0xF9 :: lo :: hi :: rest) = .ok (.cmpGrpImm (.reg (.word .c)) (.word v)) ∧
    decode (0x8B :: 0x87 :: lo :: hi :: rest) =
      .ok (.movRmReg .toReg .word (.word .a) (.mem (.disp16 .bx v))) ∧
    decode (0x8B :: 0x06 :: lo :: hi :: rest) =
      .ok (.movRmReg .toReg .word (.word .a) (.mem (.direct v))) ∧
    decode (0xA1 :: lo :: hi :: rest) = .ok (.movMemToAcc .word v) ∧
    decode (0xA3 :: lo :: hi :: rest) = .ok (.movAccToMem .word v)

/-- Decode and encode agree: every well-formed instruction, with every operand at every value its
encoding admits, is decoded back from its encoding, whatever bytes follow. -/
def Obligations.DecodeOfEncode : Prop :=
  ∀ i : Instr, i.wf = true → ∀ rest : List Byte, decode (encode i ++ rest) = .ok i

/-- The other direction: what the decoder answers is well formed, and the bytes it read are exactly
that instruction's encoding, so no two byte sequences decode to one instruction. -/
def Obligations.EncodeOfDecode : Prop :=
  ∀ (bs : List Byte) (i : Instr), decode bs = .ok i → i.wf = true ∧ encode i <+: bs

/-- 43_jumps.md R200: every jump or loop opcode byte and a displacement byte decode to that kind, with
one operand, the stored value `sext_8(disp8) + 2`, `wide` = 0 and size 2. -/
def Obligations.JumpsDecode : Prop :=
  ∀ (j : JumpKind) (d : Byte) (rest : List Byte),
    decode (j.opcode :: d :: rest) = .ok (jumpInstr j d) ∧
    (jumpInstr j d).record =
      { kind := .jump j, wide := .byte, size := 2, op0 := .rel (relValue d), op1 := none } ∧
    (relValue d).toInt = d.toInt + 2

/-- 30_encoding.md R78, 40_decoder.md R138: the stored value of an immediate in each context, and the
value an operation of its width reads. -/
def Obligations.ImmediateValues : Prop :=
  ∀ (b : Byte) (v : Word) (s : State),
    (Imm.byte b).value.toInt = b.toNat ∧ (Imm.word v).value.toInt = v.toNat ∧
    (GrpImm.byte b).value.toInt = b.toNat ∧ (GrpImm.word v).value.toInt = v.toNat ∧
    (GrpImm.sext b).value.toInt = b.toInt ∧
    readOp .byte (.imm (Imm.byte b).value) s = some (zext16 b) ∧
    readOp .word (.imm (Imm.word v).value) s = some v ∧
    readOp .byte (.imm (GrpImm.byte b).value) s = some (zext16 b) ∧
    readOp .word (.imm (GrpImm.word v).value) s = some v ∧
    readOp .word (.imm (GrpImm.sext b).value) s = some (sext16 b)

/-- The invariants of every built record, which the spec marks as its own inference (40_decoder.md
R131: "derived: from rule R129"). -/
def Obligations.BuiltRecordInvariants : Prop :=
  ∀ i : Instr, i.wf = true →
    i.record.size = (encode i).length ∧
    (i.record.op1 = none ↔ ∃ j, i.record.kind = .jump j) ∧
    (∀ m m', i.record.op0 = .mem m → i.record.op1 ≠ some (.mem m')) ∧
    (∀ r, i.record.op0 = .reg r → r.width = i.record.wide) ∧
    (∀ r, i.record.op1 = some (.reg r) → r.width = i.record.wide) ∧
    (∀ op, i.record.op1 = some op → ∃ dst : Loc, i.record.op0 = dst.operand) ∧
    (i.record.op1 = none → i.record.wide = .byte)

/-! ## Decode faults -/

/-- 60_exceptions.md R242: `UnknownOpcode` after byte 0 exactly for the 188 other first bytes, and after
byte 1 exactly for a GRP_IMM extra opcode other than 000, 101, 111. -/
def Obligations.UnknownOpcodeExactly : Prop :=
  ∀ (bs read : List Byte),
    decode bs = .fault (.unknownOpcode read) ↔
      (∃ b0 rest, bs = b0 :: rest ∧ admittedFirstByte b0 = false ∧ read = [b0]) ∨
      (∃ b0 b1 rest, bs = b0 :: b1 :: rest ∧ 0x80 ≤ b0.toNat ∧ b0.toNat ≤ 0x83 ∧
        knownExtra (regField b1) = false ∧ read = [b0, b1])

/-- 60_exceptions.md R243: `MalformedEncoding` exactly for mov IMM_RM with `mod` = 11 or `reg` other
than 000, and for byte 0x82 with a known extra opcode, after two bytes. -/
def Obligations.MalformedExactly : Prop :=
  ∀ (bs : List Byte) (d : MalformedDetail) (read : List Byte),
    decode bs = .fault (.malformed d read) ↔
      ∃ b0 b1 rest, bs = b0 :: b1 :: rest ∧ read = [b0, b1] ∧
        ((d = .registerDirect ∧ (b0 = 0xC6 ∨ b0 = 0xC7) ∧ modField b1 = 3) ∨
         (d = .regField ∧ (b0 = 0xC6 ∨ b0 = 0xC7) ∧ modField b1 ≠ 3 ∧ regField b1 ≠ 0) ∨
         (d = .signExtendByte ∧ b0 = 0x82 ∧ knownExtra (regField b1) = true))

/-- 60_exceptions.md R244: an instruction cut short anywhere before its last byte is `Truncated`, with
every byte there is read; and no six bytes are. -/
def Obligations.CutInstructionIsTruncated : Prop :=
  (∀ i : Instr, i.wf = true → ∀ n < i.size,
    decode ((encode i).take n) = .fault (.truncated ((encode i).take n))) ∧
  (∀ bs read : List Byte, decode bs = .fault (.truncated read) → read = bs ∧ bs.length < 6)

/-! ## State and operations -/

/-- 10_state.md R43: the state before the first step of a run. -/
def Obligations.ResetValues : Prop :=
  ∀ (code : List Byte) (params : Params) (initMem : Memory),
    (∀ n, (State.start code params initMem).reg n = 0x0000) ∧
    (State.start code params initMem).flags = 0x0000 ∧
    (State.start code params initMem).ip = 0x0000 ∧
    (params.codeInDataMemory = false →
      ∀ p, Memory.read (State.start code params initMem).mem p = Memory.read initMem p) ∧
    (∀ p, Memory.read [] p = 0x00) ∧
    (State.start code params initMem).runState = (if code.length > 0 then .running else .ended)

/-- 20_memory.md R66: under CODE_IN_DATA_MEMORY the image is copied over INIT_MEM, and with either
value of the parameter the first fetches of a run read the image. -/
def Obligations.StartLoadsTheImage : Prop :=
  ∀ (code : List Byte) (params : Params) (initMem : Memory),
    Memory.wf initMem = true → code.length ≤ 65535 →
    (params.codeInDataMemory = true → ∀ p,
      Memory.read (State.start code params initMem).mem p =
        (code[p]?).getD (Memory.read initMem p)) ∧
    (∀ i, codeByte (State.start code params initMem) i = code[i]?)

/-- 10_state.md R24: the three kinds of slice read. -/
def Obligations.SliceRead : Prop :=
  ∀ s : State,
    (∀ n, readSlice (.word n) s = s.reg n) ∧
    (∀ n, (readSlice (.low n) s).toNat = (s.reg n.name).toNat % 256) ∧
    (∀ n, (readSlice (.high n) s).toNat = (s.reg n.name).toNat / 256)

/-- A slice write writes the bits of the slice, keeps the other byte of the register, and leaves every
other register and the rest of the state. That the other byte is kept is the spec's own inference
(10_state.md R25: "derived: from the word "slice""). -/
def Obligations.SliceWrite : Prop :=
  ∀ (s : State) (v : Word),
    (∀ n, (writeSlice (.word n) v s).reg n = v) ∧
    (∀ n, ((writeSlice (.low n) v s).reg n.name).toNat =
      (s.reg n.name).toNat / 256 * 256 + v.toNat % 256) ∧
    (∀ n, ((writeSlice (.high n) v s).reg n.name).toNat =
      v.toNat % 256 * 256 + (s.reg n.name).toNat % 256) ∧
    (∀ r m, m ≠ r.name → (writeSlice r v s).reg m = s.reg m) ∧
    (∀ r, writeSlice r v s = { s with regs := (writeSlice r v s).regs })

/-- 20_memory.md R52, R54: a byte or a little-endian word read at an effective address. -/
def Obligations.MemoryRead : Prop :=
  ∀ (s : State) (ea : Word),
    memRead .byte ea s = some (zext16 (Memory.read s.mem ea.toNat)) ∧
    (∀ h, hiIndex s.params.hiByteAtFFFF ea = some h →
      ∃ v, memRead .word ea s = some v ∧
        v.toNat = (Memory.read s.mem h).toNat * 256 + (Memory.read s.mem ea.toNat).toNat)

/-- 20_memory.md R53: the bytes a store writes, and that no other byte of memory changes. -/
def Obligations.MemoryWrite : Prop :=
  ∀ (s : State) (ea v : Word), Memory.wf s.mem = true →
    (∃ t, memWrite .byte ea v s = some t ∧
      (Memory.read t.mem ea.toNat).toNat = v.toNat % 256 ∧
      (∀ a, a ≠ ea.toNat → Memory.read t.mem a = Memory.read s.mem a) ∧
      t = { s with mem := t.mem }) ∧
    (∀ h, hiIndex s.params.hiByteAtFFFF ea = some h →
      ∃ t, memWrite .word ea v s = some t ∧
        (Memory.read t.mem ea.toNat).toNat = v.toNat % 256 ∧
        (Memory.read t.mem h).toNat = v.toNat / 256 ∧
        (∀ a, a ≠ ea.toNat → a ≠ h → Memory.read t.mem a = Memory.read s.mem a) ∧
        t = { s with mem := t.mem })

/-- 20_memory.md R57: where a word's second byte is, and that there is none at 0xFFFF under `Fault`. -/
def Obligations.SecondByteAddress : Prop :=
  (∀ (p : HiByteAtFFFF) (ea : Word), ea ≠ 0xFFFF → hiIndex p ea = some (ea.toNat + 1)) ∧
  hiIndex .linear 0xFFFF = some 0x10000 ∧
  hiIndex .wrap16 0xFFFF = some 0x00000 ∧
  hiIndex .fault 0xFFFF = none ∧
  (∀ (s : State) (v : Word), s.params.hiByteAtFFFF = .fault →
    memRead .word 0xFFFF s = none ∧ memWrite .word 0xFFFF v s = none)

/-- 40_decoder.md R127: the effective address is the sum of the named registers and the signed
displacement, modulo 2^16. -/
def Obligations.EffectiveAddressSum : Prop :=
  ∀ (s : State) (d a : Word),
    effectiveAddress (.direct a) s = a ∧
    ((effectiveAddress (.based .bxsi d) s).toNat : Int) =
      ((s.reg .b).toNat + (s.reg .si).toNat + d.toInt) % 65536 ∧
    ((effectiveAddress (.based .bxdi d) s).toNat : Int) =
      ((s.reg .b).toNat + (s.reg .di).toNat + d.toInt) % 65536 ∧
    ((effectiveAddress (.based .bpsi d) s).toNat : Int) =
      ((s.reg .bp).toNat + (s.reg .si).toNat + d.toInt) % 65536 ∧
    ((effectiveAddress (.based .bpdi d) s).toNat : Int) =
      ((s.reg .bp).toNat + (s.reg .di).toNat + d.toInt) % 65536 ∧
    ((effectiveAddress (.based .si d) s).toNat : Int) = ((s.reg .si).toNat + d.toInt) % 65536 ∧
    ((effectiveAddress (.based .di d) s).toNat : Int) = ((s.reg .di).toNat + d.toInt) % 65536 ∧
    ((effectiveAddress (.based .bp d) s).toNat : Int) = ((s.reg .bp).toNat + d.toInt) % 65536 ∧
    ((effectiveAddress (.based .bx d) s).toNat : Int) = ((s.reg .b).toNat + d.toInt) % 65536

/-- 40_decoder.md R134, R136: what an operand reads and where a destination is written. -/
def Obligations.OperandAccess : Prop :=
  ∀ (s : State) (w : Width) (v : Word),
    (∀ r, readOp w (.reg r) s = some (readSlice r s)) ∧
    (∀ m, readOp w (.mem m) s = memRead w (effectiveAddress m s) s) ∧
    (∀ x, ∃ u, readOp w (.imm x) s = some u ∧ u.toNat = x.toNat % 2 ^ bits w) ∧
    (∀ d, ∃ u, readOp w (.rel (relValue d)) s = some u ∧ u.toInt = d.toInt + 2) ∧
    (∀ r, writeLoc w (.reg r) v s = some (writeSlice r v s)) ∧
    (∀ m, writeLoc w (.mem m) v s = memWrite w (effectiveAddress m s) v s)

/-- 40_decoder.md R135: ZF is bit 6 and SF bit 7 (10_state.md R31), both from the result at the
operation width, and no other bit and nothing else of the state changes. -/
def Obligations.FlagUpdateRule : Prop :=
  ∀ (w : Width) (r : Word) (s : State),
    ((flagUpdate w r s).flags.getLsbD 6 = true ↔ r = 0) ∧
    (flagUpdate w r s).flags.getLsbD 7 = r.getLsbD (bits w - 1) ∧
    otherFlagsUnchanged s (flagUpdate w r s) ∧
    flagUpdate w r s = { s with flags := (flagUpdate w r s).flags }

/-- 42_arith.md R179: the three operations are modular at the operation width, with ZF and SF from the
result. -/
def Obligations.ArithmeticIsModular : Prop :=
  ∀ (w : Width) (d v : Word) (s : State),
    (arithResult .add w d v).toNat = (d.toNat + v.toNat) % 2 ^ bits w ∧
    ((arithResult .sub w d v).toNat : Int) = ((d.toNat : Int) - v.toNat) % 2 ^ bits w ∧
    ((arithResult .cmp w d v).toNat : Int) = ((d.toNat : Int) - v.toNat) % 2 ^ bits w ∧
    (∀ a, ((flagUpdate w (arithResult a w d v) s).zf = true ↔ arithResult a w d v = 0) ∧
      (flagUpdate w (arithResult a w d v) s).sf = (arithResult a w d v).getLsbD (bits w - 1))

/-! ## Instructions: results -/

/-- 41_mov.md R150-R154, pseudocode: every form of mov completes with the source's value at the
destination, unless it is a word access at 0xFFFF under `Fault`. -/
def Obligations.MovResult : Prop :=
  ∀ s : State,
    (∀ dir w reg rm, movCompletes (.movRmReg dir w reg rm) w (rmRegDst dir reg rm)
      (rmRegSrc dir reg rm) s) ∧
    (∀ m imm, movCompletes (.movImmRm m imm) imm.width (.mem m.operand) (.imm imm.value) s) ∧
    (∀ reg imm, movCompletes (.movImmReg reg imm) imm.width (.reg reg) (.imm imm.value) s) ∧
    (∀ w addr, movCompletes (.movMemToAcc w addr) w (.reg (accumulator w)) (.mem (.direct addr)) s) ∧
    (∀ w addr, movCompletes (.movAccToMem w addr) w (.mem (.direct addr)) (.reg (accumulator w)) s)

/-- 42_arith.md R170-R172, pseudocode: every form of add completes. -/
def Obligations.AddResult : Prop :=
  ∀ s : State,
    (∀ dir w reg rm, updateCompletes (· + ·) (.addRmReg dir w reg rm) w (rmRegDst dir reg rm)
      (rmRegSrc dir reg rm) s) ∧
    (∀ rm imm, updateCompletes (· + ·) (.addGrpImm rm imm) imm.width rm.loc (.imm imm.value) s) ∧
    (∀ imm, updateCompletes (· + ·) (.addAccImm imm) imm.width (.reg (accumulator imm.width))
      (.imm imm.value) s)

/-- 42_arith.md R173-R175, pseudocode: every form of sub completes. -/
def Obligations.SubResult : Prop :=
  ∀ s : State,
    (∀ dir w reg rm, updateCompletes (· - ·) (.subRmReg dir w reg rm) w (rmRegDst dir reg rm)
      (rmRegSrc dir reg rm) s) ∧
    (∀ rm imm, updateCompletes (· - ·) (.subGrpImm rm imm) imm.width rm.loc (.imm imm.value) s) ∧
    (∀ imm, updateCompletes (· - ·) (.subAccImm imm) imm.width (.reg (accumulator imm.width))
      (.imm imm.value) s)

/-- 42_arith.md R176-R178, pseudocode: every form of cmp completes, and writes ZF, SF and `ip` alone. -/
def Obligations.CmpResult : Prop :=
  ∀ s : State,
    (∀ dir w reg rm, compareCompletes (.cmpRmReg dir w reg rm) w (rmRegDst dir reg rm)
      (rmRegSrc dir reg rm) s) ∧
    (∀ rm imm, compareCompletes (.cmpGrpImm rm imm) imm.width rm.loc (.imm imm.value) s) ∧
    (∀ imm, compareCompletes (.cmpAccImm imm) imm.width (.reg (accumulator imm.width))
      (.imm imm.value) s)

/-- 43_jumps.md R209, pseudocode: jnz is taken exactly when ZF is clear, to
`IP_start + 2 + sext_8(disp8)` modulo 2^16, and writes `ip` alone. -/
def Obligations.JnzResult : Prop :=
  ∀ (d : Byte) (s : State),
    (s.flags.getLsbD 6 = false → ∃ target : Word,
      (target.toNat : Int) = (s.ip.toNat + (d.toInt + 2)) % 65536 ∧
      exec (.jnz d) s = .next { s with ip := target }) ∧
    (s.flags.getLsbD 6 = true → exec (.jnz d) s = .next { s with ip := s.ip + 2 })

/-- 43_jumps.md R201-R208, R210-R220, pseudocode: the nineteen other jump and loop kinds complete with
`ip <- IP_start + 2` and nothing else written, whatever the flags and `x[c]` are. -/
def Obligations.OtherJumpsFallThrough : Prop :=
  ∀ (d : Byte) (s : State),
    exec (.je d) s = .next { s with ip := s.ip + 2 } ∧
    exec (.jl d) s = .next { s with ip := s.ip + 2 } ∧
    exec (.jle d) s = .next { s with ip := s.ip + 2 } ∧
    exec (.jb d) s = .next { s with ip := s.ip + 2 } ∧
    exec (.jbe d) s = .next { s with ip := s.ip + 2 } ∧
    exec (.jp d) s = .next { s with ip := s.ip + 2 } ∧
    exec (.jo d) s = .next { s with ip := s.ip + 2 } ∧
    exec (.js d) s = .next { s with ip := s.ip + 2 } ∧
    exec (.jnl d) s = .next { s with ip := s.ip + 2 } ∧
    exec (.jg d) s = .next { s with ip := s.ip + 2 } ∧
    exec (.jnb d) s = .next { s with ip := s.ip + 2 } ∧
    exec (.ja d) s = .next { s with ip := s.ip + 2 } ∧
    exec (.jnp d) s = .next { s with ip := s.ip + 2 } ∧
    exec (.jno d) s = .next { s with ip := s.ip + 2 } ∧
    exec (.jns d) s = .next { s with ip := s.ip + 2 } ∧
    exec (.loop d) s = .next { s with ip := s.ip + 2 } ∧
    exec (.loopz d) s = .next { s with ip := s.ip + 2 } ∧
    exec (.loopnz d) s = .next { s with ip := s.ip + 2 } ∧
    exec (.jcxz d) s = .next { s with ip := s.ip + 2 }

/-- 60_exceptions.md R245: exactly the mov, add, sub and cmp with a word memory operand at effective
address 0xFFFF under `Fault` raise `WordAtFFFF`, and they write nothing. -/
def Obligations.WordAtFFFFExactly : Prop :=
  ∀ (i : Instr) (s : State), s.runState = .running →
    ((∃ t r, exec i s = .next t ∧ t.runState = .faulted r) ↔ wordAtFFFF i s = true) ∧
    (wordAtFFFF i s = true → ∃ read,
      exec i s = .next { s with runState := .faulted ⟨.wordAtFFFF 0xFFFF, s.ip, read⟩ })

/-- 40_decoder.md R137, its examples: an instruction whose source and destination are one place reads
the old value. -/
def Obligations.ReadsBeforeWrites : Prop :=
  ∀ (dir : Dir) (r : Slice) (s : State),
    (∃ t, exec (.subRmReg dir r.width r (.reg r)) s = .next t ∧
      readSlice r t = 0 ∧ t.zf = true ∧ t.sf = false) ∧
    (∃ t, exec (.addRmReg dir r.width r (.reg r)) s = .next t ∧
      (readSlice r t).toNat = 2 * (readSlice r s).toNat % 2 ^ bits r.width) ∧
    (s.reg .b ≠ 0xFFFF →
      ∃ t, exec (.movRmReg .toReg .word (.word .b) (.mem (.noDisp .bx))) s = .next t ∧
        (t.reg .b).toNat = (Memory.read s.mem ((s.reg .b).toNat + 1)).toNat * 256 +
          (Memory.read s.mem (s.reg .b).toNat).toNat)

/-! ## Instructions: frames -/

/-- Frame of mov (41_mov.md, flags none written): only the destination and `ip` change. -/
def Obligations.MovFrame : Prop :=
  ∀ s t : State,
    (∀ dir w reg rm, exec (.movRmReg dir w reg rm) s = .next t →
      unchangedBut w (some (rmRegDst dir reg rm)) s t ∧ t.flags = s.flags ∧
        statusKept (.movRmReg dir w reg rm) s t) ∧
    (∀ m imm, exec (.movImmRm m imm) s = .next t →
      unchangedBut imm.width (some (.mem m.operand)) s t ∧ t.flags = s.flags ∧
        statusKept (.movImmRm m imm) s t) ∧
    (∀ reg imm, exec (.movImmReg reg imm) s = .next t →
      unchangedBut imm.width (some (.reg reg)) s t ∧ t.flags = s.flags ∧
        statusKept (.movImmReg reg imm) s t) ∧
    (∀ w addr, exec (.movMemToAcc w addr) s = .next t →
      unchangedBut w (some (.reg (accumulator w))) s t ∧ t.flags = s.flags ∧
        statusKept (.movMemToAcc w addr) s t) ∧
    (∀ w addr, exec (.movAccToMem w addr) s = .next t →
      unchangedBut w (some (.mem (.direct addr))) s t ∧ t.flags = s.flags ∧
        statusKept (.movAccToMem w addr) s t)

/-- Frame of add (42_arith.md): only the destination, ZF, SF and `ip` change. -/
def Obligations.AddFrame : Prop :=
  ∀ s t : State,
    (∀ dir w reg rm, exec (.addRmReg dir w reg rm) s = .next t →
      unchangedBut w (some (rmRegDst dir reg rm)) s t ∧ otherFlagsUnchanged s t ∧
        statusKept (.addRmReg dir w reg rm) s t) ∧
    (∀ rm imm, exec (.addGrpImm rm imm) s = .next t →
      unchangedBut imm.width (some rm.loc) s t ∧ otherFlagsUnchanged s t ∧
        statusKept (.addGrpImm rm imm) s t) ∧
    (∀ imm, exec (.addAccImm imm) s = .next t →
      unchangedBut imm.width (some (.reg (accumulator imm.width))) s t ∧
        otherFlagsUnchanged s t ∧ statusKept (.addAccImm imm) s t)

/-- Frame of sub (42_arith.md): only the destination, ZF, SF and `ip` change. -/
def Obligations.SubFrame : Prop :=
  ∀ s t : State,
    (∀ dir w reg rm, exec (.subRmReg dir w reg rm) s = .next t →
      unchangedBut w (some (rmRegDst dir reg rm)) s t ∧ otherFlagsUnchanged s t ∧
        statusKept (.subRmReg dir w reg rm) s t) ∧
    (∀ rm imm, exec (.subGrpImm rm imm) s = .next t →
      unchangedBut imm.width (some rm.loc) s t ∧ otherFlagsUnchanged s t ∧
        statusKept (.subGrpImm rm imm) s t) ∧
    (∀ imm, exec (.subAccImm imm) s = .next t →
      unchangedBut imm.width (some (.reg (accumulator imm.width))) s t ∧
        otherFlagsUnchanged s t ∧ statusKept (.subAccImm imm) s t)

/-- Frame of cmp (42_arith.md): no register and no byte of memory changes; only ZF, SF and `ip` do. -/
def Obligations.CmpFrame : Prop :=
  ∀ s t : State,
    (∀ dir w reg rm, exec (.cmpRmReg dir w reg rm) s = .next t →
      unchangedBut w none s t ∧ otherFlagsUnchanged s t ∧
        statusKept (.cmpRmReg dir w reg rm) s t) ∧
    (∀ rm imm, exec (.cmpGrpImm rm imm) s = .next t →
      unchangedBut imm.width none s t ∧ otherFlagsUnchanged s t ∧
        statusKept (.cmpGrpImm rm imm) s t) ∧
    (∀ imm, exec (.cmpAccImm imm) s = .next t →
      unchangedBut imm.width none s t ∧ otherFlagsUnchanged s t ∧ statusKept (.cmpAccImm imm) s t)

/-- Frame of the twenty jump and loop kinds (43_jumps.md): only `ip` changes. -/
def Obligations.JumpFrame : Prop :=
  ∀ (j : JumpKind) (d : Byte) (s t : State), exec (jumpInstr j d) s = .next t →
    t = { s with ip := t.ip }

/-! ## The step -/

/-- 40_decoder.md R133: in Execute mode, when the bytes at `ip` decode to `i`, the step is `exec i`;
a completed instruction's record goes to the listing and the run ends when `ip` has left the image
(10_state.md R44), a faulted one's state is the step's. What the listing holds is the model's choice
(notes/assumptions/5.md). -/
def Obligations.StepRunsTheDecodedInstruction : Prop :=
  ∀ (s t : State) (i : Instr), s.runState = .running → s.codeLen ≤ 65535 →
    s.params.mode = .execute → decode (fetchWindow s) = .ok i → exec i s = .next t →
    (∀ r, t.runState = .faulted r → step s = .next t) ∧
    (t.runState = .running → step s = .next { t with
      listing := i.record :: t.listing
      runState := if t.codeLen ≤ t.ip.toNat then .ended else .running })

/-- 40_decoder.md R132: in Disassemble mode the step moves `ip` by the size, hands the record to the
printer, and changes nothing else but the run status. -/
def Obligations.DisassembleStepOnlyAdvances : Prop :=
  ∀ (s : State) (i : Instr), s.runState = .running → s.codeLen ≤ 65535 →
    s.params.mode = .disassemble → decode (fetchWindow s) = .ok i →
    step s = .next { s with
      ip := s.ip + BitVec.ofNat 16 i.size
      listing := i.record :: s.listing
      runState :=
        if s.codeLen ≤ (s.ip + BitVec.ofNat 16 i.size).toNat then .ended else .running }

/-- 60_exceptions.md R241, R246: in either mode, a decode fault makes the step write the run status
alone, with the fault, `IP_start` and the bytes read. -/
def Obligations.DecodeFaultStopsTheRun : Prop :=
  ∀ (s : State), s.runState = .running → s.codeLen ≤ 65535 →
    (∀ read, decode (fetchWindow s) = .fault (.unknownOpcode read) →
      step s = .next { s with runState := .faulted ⟨.unknownOpcode, s.ip, read⟩ }) ∧
    (∀ d read, decode (fetchWindow s) = .fault (.malformed d read) →
      step s = .next { s with runState := .faulted ⟨.malformedEncoding d, s.ip, read⟩ }) ∧
    (∀ read, decode (fetchWindow s) = .fault (.truncated read) →
      step s = .next { s with
        runState := .faulted ⟨.truncated (s.ip.toNat + read.length), s.ip, read⟩ })

/-- 10_state.md R39: the bytes the decoder is offered are `code(ip + k)` for k = 0..5, of which
`min(6, CODE_LEN - ip)` are available, from the image or from data memory (10_state.md R30). -/
def Obligations.FetchWindowBytes : Prop :=
  ∀ s : State,
    (fetchWindow s).length = min 6 (s.codeLen - s.ip.toNat) ∧
    (∀ k, k < 6 → s.ip.toNat + k < s.codeLen →
      (s.params.codeInDataMemory = false → (fetchWindow s)[k]? = s.code[s.ip.toNat + k]?) ∧
      (s.params.codeInDataMemory = true →
        (fetchWindow s)[k]? = some (Memory.read s.mem (s.ip.toNat + k))))

/-- A step is taken exactly in `Running` on an image of at most 65535 bytes: every byte sequence
decodes or raises a fault (30_encoding.md, section 4), and no instruction is refused. That a step asked
for in `Ended` or `Faulted` stops under these names, and that a longer image is refused at the step, is
the model's choice (notes/assumptions/3.md, notes/assumptions/4.md). -/
def Obligations.StepTakenExactlyInRunning : Prop :=
  ∀ s : State,
    ((∃ t, step s = .next t) ↔ s.runState = .running ∧ s.codeLen ≤ 65535) ∧
    (s.runState = .ended → step s = .fault .runEnded) ∧
    (∀ r, s.runState = .faulted r → step s = .fault (.runFaulted r))

/-- The state after a fault is the state before the step with `run_state` `Faulted`, which the spec
marks as its own inference (60_exceptions.md R248: "derived: from rule R241"). -/
def Obligations.FaultsArePrecise : Prop :=
  ∀ (s t : State) (r : FaultRecord), step s = .next t → t.runState = .faulted r →
    t = { s with runState := .faulted r }

/-- 60_exceptions.md R246: what a fault record holds. That the record of `WordAtFFFF` holds the whole
instruction is the model's choice (notes/assumptions/9.md). -/
def Obligations.FaultRecordContents : Prop :=
  ∀ (s t : State) (r : FaultRecord), step s = .next t → t.runState = .faulted r →
    r.ipStart = s.ip ∧ r.bytesRead <+: fetchWindow s ∧
    match r.cause with
    | .unknownOpcode => r.bytesRead.length = 1 ∨ r.bytesRead.length = 2
    | .malformedEncoding _ => r.bytesRead.length = 2
    | .truncated missing =>
      r.bytesRead.length ≤ 5 ∧ missing = s.ip.toNat + r.bytesRead.length ∧ s.codeLen ≤ missing
    | .wordAtFFFF ea =>
      ea = 0xFFFF ∧ ∃ i, decode (fetchWindow s) = .ok i ∧ r.bytesRead = encode i

/-- 10_state.md R44: a step is taken only in `Running`, so `Ended` and `Faulted` are permanent; after
it the run goes on while `ip` is inside the image, has ended when `ip` is not, and has faulted exactly
when the step raised a fault. -/
def Obligations.RunStatusRule : Prop :=
  ∀ s t : State, step s = .next t → s.runState = .running ∧
    (t.runState = .running → t.ip.toNat < t.codeLen) ∧
    (t.runState = .ended → t.codeLen ≤ t.ip.toNat) ∧
    ((∃ r, t.runState = .faulted r) ↔ (∃ f, decode (fetchWindow s) = .fault f) ∨
      ∃ i, decode (fetchWindow s) = .ok i ∧ s.params.mode = .execute ∧ wordAtFFFF i s = true)

/-- 10_state.md R28: a step that completes without a fault advances `ip` by the size, except a taken
jnz in Execute mode; a faulting step leaves it. -/
def Obligations.OnlyTakenJnzLeavesTheSequence : Prop :=
  ∀ s t : State, step s = .next t →
    (∀ r, t.runState = .faulted r → t.ip = s.ip) ∧
    ((∀ r, t.runState ≠ .faulted r) → ∃ i, decode (fetchWindow s) = .ok i ∧
      (¬ (s.params.mode = .execute ∧ s.zf = false ∧ ∃ d, i = .jnz d) →
        t.ip = s.ip + BitVec.ofNat 16 i.size) ∧
      (∀ d, s.params.mode = .execute → s.zf = false → i = .jnz d →
        (t.ip.toNat : Int) = (s.ip.toNat + (d.toInt + 2)) % 65536))

/-- 10_state.md R26: only a mov, add or sub writes a register, in Execute mode, and only the register
its destination slice names. -/
def Obligations.RegisterWriters : Prop :=
  ∀ (s t : State) (n : RegName), step s = .next t → t.reg n ≠ s.reg n →
    s.params.mode = .execute ∧ ∃ i r, decode (fetchWindow s) = .ok i ∧
      (i.record.kind = .data .mov ∨ i.record.kind = .data (.arith .add) ∨
        i.record.kind = .data (.arith .sub)) ∧
      i.record.op0 = .reg r ∧ r.name = n

/-- 10_state.md R33, with 40_decoder.md R135: the flags word is written only by an add, sub or cmp in
Execute mode, and then ZF and SF are both written from the one result that instruction computes at its
width from the values its two operands read before the step; otherwise the flags word is unchanged. -/
def Obligations.FlagWriters : Prop :=
  ∀ s t : State, step s = .next t → (∀ r, t.runState ≠ .faulted r) →
    ∃ i, decode (fetchWindow s) = .ok i ∧
      (∀ a, s.params.mode = .execute → i.record.kind = .data (.arith a) →
        ∃ src d v, i.record.op1 = some src ∧
          readOp i.record.wide i.record.op0 s = some d ∧ readOp i.record.wide src s = some v ∧
          (t.zf = true ↔ arithResult a i.record.wide d v = 0) ∧
          t.sf = (arithResult a i.record.wide d v).getLsbD (bits i.record.wide - 1) ∧
          otherFlagsUnchanged s t) ∧
      (¬ (s.params.mode = .execute ∧ ∃ a, i.record.kind = .data (.arith a)) →
        t.flags = s.flags)

/-- 10_state.md R32, its last sentence: SF is read by no instruction. Two states that differ in SF
alone take every instruction to states that agree in all but SF. -/
def Obligations.SignFlagIsNeverRead : Prop :=
  ∀ (i : Instr) (s t : State) (b : Bool), exec i s = .next t →
    ∃ t', exec i (withSf b s) = .next t' ∧ t'.regs = t.regs ∧ t'.ip = t.ip ∧ t'.mem = t.mem ∧
      t'.zf = t.zf ∧ t'.runState = t.runState

/-- 20_memory.md R51, R50: no step writes data memory above 0x10000, nor at 0x10000 unless
`HI_BYTE_AT_FFFF` is `Linear`. -/
def Obligations.HighMemoryIsNeverWritten : Prop :=
  ∀ (s t : State) (a : Nat), step s = .next t →
    (0x10000 < a ∨ (a = 0x10000 ∧ s.params.hiByteAtFFFF ≠ .linear)) →
    Memory.read t.mem a = Memory.read s.mem a

/-- 10_state.md R34, 70_reset_and_hazards.md R268: no step writes the image or the parameters; under
CODE_IN_DATA_MEMORY = false no step changes a byte a later fetch reads, and under true every later
fetch reads data memory as it then is. -/
def Obligations.StoresAndFetch : Prop :=
  ∀ s t : State, step s = .next t →
    t.code = s.code ∧ t.params = s.params ∧
    (s.params.codeInDataMemory = false → ∀ i, codeByte t i = codeByte s i) ∧
    (s.params.codeInDataMemory = true → ∀ i, codeByte t i =
      if i < s.codeLen then some (Memory.read t.mem i) else none)

/-- 93_implementation_defined.md section 1, decision D23: an image of more than 65535 bytes is refused;
the model does so at every step of the run (notes/assumptions/4.md). -/
def Obligations.LongImageIsRefused : Prop :=
  ∀ s : State, s.runState = .running → 65535 < s.codeLen → step s = .refused .imageTooLong

/-! ## Invariants -/

/-- The reset state meets the invariant (10_state.md R43). That its image is empty is the model's
choice (notes/assumptions/1.md). -/
def Obligations.ResetMeetsTheInvariant : Prop := State.reset.Inv

/-- The start of a run meets the invariant, for every image of at most 65535 bytes and every INIT_MEM in
canonical form. -/
def Obligations.StartMeetsTheInvariant : Prop :=
  ∀ (code : List Byte) (params : Params) (initMem : Memory),
    code.length ≤ 65535 → Memory.wf initMem = true → (State.start code params initMem).Inv

/-- Every step keeps the invariant: memory in canonical form within 2^20 bytes, the image at most 65535
bytes, every flags bit but ZF and SF 0 (10_state.md R31), and a run status that agrees with `ip`
(10_state.md R44). -/
def Obligations.StepKeepsTheInvariant : Prop :=
  ∀ s t : State, s.Inv → step s = .next t → t.Inv

/-- 40_decoder.md R132: in Disassemble mode the summed lengths of the instructions listed stay equal to
`ip`, so that a run that ends without a fault has listed exactly the image's length. -/
def Obligations.DisassemblyCoversTheImage : Prop :=
  ∀ s t : State, s.params.mode = .disassemble → s.listedBytes = s.ip.toNat → step s = .next t →
    t.params.mode = .disassemble ∧ t.listedBytes = t.ip.toNat ∧
      (t.runState = .ended → t.listedBytes = t.codeLen)

/-! ## Assembler text -/

/-- 30_encoding.md R89-R94, with the lines that 95_test_vectors.md sections 1 and 2.2 print. -/
def Obligations.PrintedLines : Prop :=
  printed [0x8B, 0x40, 0xFB] = some "mov ax, [bx+si-5]" ∧
  printed [0xB8, 0x05, 0x00] = some "mov ax, 5" ∧
  printed [0x8B, 0x1E, 0x34, 0x12] = some "mov bx, [4660]" ∧
  printed [0x8B, 0x5E, 0x34] = some "mov bx, [bp+52]" ∧
  printed [0x8B, 0x46, 0x00] = some "mov ax, [bp]" ∧
  printed [0x8B, 0x87, 0x00, 0x80] = some "mov ax, [bx-32768]" ∧
  printed [0x8B, 0x06, 0xFF, 0xFF] = some "mov ax, [65535]" ∧
  printed [0x88, 0xF6] = some "mov dh, dh" ∧
  printed [0xC6, 0x06, 0x10, 0x00, 0xFF] = some "mov [16], byte 255" ∧
  printed [0x83, 0x3E, 0x10, 0x00, 0xFF] = some "cmp [16], word -1" ∧
  printed [0x83, 0xC0, 0xFD] = some "add ax, -3" ∧
  printed [0x75, 0xFB] = some "jnz $-3" ∧
  printed [0xE0, 0x00] = some "loopnz $+2"

/-- The text of a line determines the record but for its size, so that the record sequence can be had
back from the listing (30_encoding.md, section 6; the round trip of R97 is the spec's own inference:
"derived: from rules R73-R79 and rules R89-R94"). -/
def Obligations.PrintedTextDeterminesTheRecord : Prop :=
  ∀ i j : Instr, i.wf = true → j.wf = true → lineText i.record = lineText j.record →
    i.record.kind = j.record.kind ∧ i.record.wide = j.record.wide ∧
      i.record.op0 = j.record.op0 ∧ i.record.op1 = j.record.op1

/-! ## Record signals -/

/-- 10_state.md R38: the signals hold a record without loss, at the widths and ranges given there, with a
register's width in bytes; a step's `fault` signal is 0 exactly when the step raises no fault and else
the code of the fault recorded; and the record is there exactly when one was built. That it is absent
with a decode fault is the model's choice (notes/assumptions/15.md), as are the tags' numbers
(notes/assumptions/13.md). -/
def Obligations.RecordSignalValues : Prop :=
  (∀ i j : Instr, recordSignals i.record = recordSignals j.record → i.record = j.record) ∧
  (∀ i : Instr, (recordSignals i.record).kind.toNat = i.record.kind.index ∧
    i.record.kind.index ≤ 23 ∧ (recordSignals i.record).size.toNat = i.record.size ∧
    1 ≤ i.record.size ∧ i.record.size ≤ 6 ∧
    ((recordSignals i.record).wide = 1 ↔ i.record.wide = .word) ∧
    (∀ v, i.record.op0 = .rel v → -126 ≤ v.toInt ∧ v.toInt ≤ 129)) ∧
  (∀ r : Slice, ∃ w : BitVec 2, 8 * w.toNat = bits r.width ∧
    operandSignals (some (.reg r)) = ⟨1, .reg r.name.storageIndex r.offset w⟩) ∧
  (∀ s t : State, step s = .next t →
    (t.runState.faultSignal = 0 ↔ ∀ r, t.runState ≠ .faulted r) ∧
    (stepSignals s).fault = t.runState.faultSignal ∧
    (∀ r, t.runState = .faulted r → (stepSignals s).fault.toNat = r.cause.code) ∧
    (∀ i, decode (fetchWindow s) = .ok i →
      (stepSignals s).record = some (recordSignals i.record)) ∧
    (∀ f, decode (fetchWindow s) = .fault f → (stepSignals s).record = none))
end

