-- ==== Sys2Proof/Laws/State.lean ====
section
/-! SUPPORT. What each state update writes and what it leaves, one lemma a field, true by rfl; and the
register file read after a write. -/

namespace Sys2Proof.Machine

variable (s : State)

@[simp] theorem setReg_regs (n : RegName) (v : Word) : (s.setReg n v).regs = s.regs.set n v := rfl
@[simp] theorem setReg_flags (n : RegName) (v : Word) : (s.setReg n v).flags = s.flags := rfl
@[simp] theorem setReg_ip (n : RegName) (v : Word) : (s.setReg n v).ip = s.ip := rfl
@[simp] theorem setReg_mem (n : RegName) (v : Word) : (s.setReg n v).mem = s.mem := rfl
@[simp] theorem setReg_code (n : RegName) (v : Word) : (s.setReg n v).code = s.code := rfl
@[simp] theorem setReg_params (n : RegName) (v : Word) : (s.setReg n v).params = s.params := rfl
@[simp] theorem setReg_runState (n : RegName) (v : Word) : (s.setReg n v).runState = s.runState := rfl
@[simp] theorem setReg_listing (n : RegName) (v : Word) : (s.setReg n v).listing = s.listing := rfl

@[simp] theorem setIp_regs (t : Word) : (s.setIp t).regs = s.regs := rfl
@[simp] theorem setIp_flags (t : Word) : (s.setIp t).flags = s.flags := rfl
@[simp] theorem setIp_ip (t : Word) : (s.setIp t).ip = t := rfl
@[simp] theorem setIp_mem (t : Word) : (s.setIp t).mem = s.mem := rfl
@[simp] theorem setIp_code (t : Word) : (s.setIp t).code = s.code := rfl
@[simp] theorem setIp_params (t : Word) : (s.setIp t).params = s.params := rfl
@[simp] theorem setIp_runState (t : Word) : (s.setIp t).runState = s.runState := rfl
@[simp] theorem setIp_listing (t : Word) : (s.setIp t).listing = s.listing := rfl

@[simp] theorem advance_regs (i : Instr) : (advance i s).regs = s.regs := rfl
@[simp] theorem advance_flags (i : Instr) : (advance i s).flags = s.flags := rfl
@[simp] theorem advance_ip (i : Instr) : (advance i s).ip = s.ip + BitVec.ofNat 16 i.size := rfl
@[simp] theorem advance_mem (i : Instr) : (advance i s).mem = s.mem := rfl
@[simp] theorem advance_code (i : Instr) : (advance i s).code = s.code := rfl
@[simp] theorem advance_params (i : Instr) : (advance i s).params = s.params := rfl
@[simp] theorem advance_runState (i : Instr) : (advance i s).runState = s.runState := rfl
@[simp] theorem advance_listing (i : Instr) : (advance i s).listing = s.listing := rfl

@[simp] theorem raise_regs (r : FaultRecord) : (raise r s).regs = s.regs := rfl
@[simp] theorem raise_flags (r : FaultRecord) : (raise r s).flags = s.flags := rfl
@[simp] theorem raise_ip (r : FaultRecord) : (raise r s).ip = s.ip := rfl
@[simp] theorem raise_mem (r : FaultRecord) : (raise r s).mem = s.mem := rfl
@[simp] theorem raise_code (r : FaultRecord) : (raise r s).code = s.code := rfl
@[simp] theorem raise_params (r : FaultRecord) : (raise r s).params = s.params := rfl
@[simp] theorem raise_runState (r : FaultRecord) : (raise r s).runState = .faulted r := rfl
@[simp] theorem raise_listing (r : FaultRecord) : (raise r s).listing = s.listing := rfl

@[simp] theorem emit_regs (r : InstRecord) : (emit r s).regs = s.regs := rfl
@[simp] theorem emit_flags (r : InstRecord) : (emit r s).flags = s.flags := rfl
@[simp] theorem emit_ip (r : InstRecord) : (emit r s).ip = s.ip := rfl
@[simp] theorem emit_mem (r : InstRecord) : (emit r s).mem = s.mem := rfl
@[simp] theorem emit_code (r : InstRecord) : (emit r s).code = s.code := rfl
@[simp] theorem emit_params (r : InstRecord) : (emit r s).params = s.params := rfl
@[simp] theorem emit_runState (r : InstRecord) : (emit r s).runState = s.runState := rfl
@[simp] theorem emit_listing (r : InstRecord) : (emit r s).listing = r :: s.listing := rfl

@[simp] theorem flagUpdate_regs (w : Width) (r : Word) : (flagUpdate w r s).regs = s.regs := rfl
@[simp] theorem flagUpdate_flags (w : Width) (r : Word) : (flagUpdate w r s).flags = withZfSf s.flags (resultZero r) (resultSign w r) := rfl
@[simp] theorem flagUpdate_ip (w : Width) (r : Word) : (flagUpdate w r s).ip = s.ip := rfl
@[simp] theorem flagUpdate_mem (w : Width) (r : Word) : (flagUpdate w r s).mem = s.mem := rfl
@[simp] theorem flagUpdate_code (w : Width) (r : Word) : (flagUpdate w r s).code = s.code := rfl
@[simp] theorem flagUpdate_params (w : Width) (r : Word) : (flagUpdate w r s).params = s.params := rfl
@[simp] theorem flagUpdate_runState (w : Width) (r : Word) : (flagUpdate w r s).runState = s.runState := rfl
@[simp] theorem flagUpdate_listing (w : Width) (r : Word) : (flagUpdate w r s).listing = s.listing := rfl

/-- Writing a register and reading it back. -/
@[simp] theorem Regs.get_set_same (r : Regs) (n : RegName) (v : Word) : (r.set n v).get n = v := by
  cases n <;> rfl

/-- Writing one register leaves the other seven. -/
theorem Regs.get_set_other (r : Regs) {n m : RegName} (h : m ≠ n) (v : Word) :
    (r.set n v).get m = r.get m := by
  cases n <;> cases m <;> first | rfl | exact absurd rfl h

/-- A register file is its eight registers. -/
theorem Regs.ext_get {r r' : Regs} (h : ∀ n, r.get n = r'.get n) : r = r' := by
  cases r; cases r'
  have ha := h .a; have hb := h .b; have hc := h .c; have hd := h .d
  have hsp := h .sp; have hbp := h .bp; have hsi := h .si; have hdi := h .di
  simp only [Regs.get] at ha hb hc hd hsp hbp hsi hdi
  simp only [ha, hb, hc, hd, hsp, hbp, hsi, hdi]

end Sys2Proof.Machine
end

