-- ==== Sys2Proof/Laws/Memory.lean ====
section
/-! SUPPORT. Data memory: a byte reads back what was written, no other byte changes, and every
operation keeps the canonical form. -/

namespace Sys2Proof.Machine

namespace Memory

/-- The canonical form from a least address on holds from every smaller one. -/
theorem wfFrom_mono {m : Memory} {k l : Nat} (hkl : k ≤ l) (h : wfFrom l m = true) :
    wfFrom k m = true := by
  cases m with
  | nil => rfl
  | cons c m =>
    simp only [wfFrom, Bool.and_eq_true, decide_eq_true_eq] at h ⊢
    exact ⟨⟨⟨hkl.trans h.1.1.1, h.1.1.2⟩, h.1.2⟩, h.2⟩

/-- Below its least address a canonical memory lists nothing. -/
theorem read_below {m : Memory} {l a : Nat} (h : wfFrom l m = true) (ha : a < l) :
    read m a = unlistedByte := by
  induction m generalizing l with
  | nil => rfl
  | cons c m ih =>
    simp only [wfFrom, Bool.and_eq_true, decide_eq_true_eq] at h
    have hne : a ≠ c.1 := by omega
    simp only [read, if_neg hne]
    exact ih h.2 (by omega)

/-- A byte reads back what was written. -/
theorem read_write_same {m : Memory} {l : Nat} (h : wfFrom l m = true) (a : Nat) (v : Byte) :
    read (write m a v) a = v := by
  induction m generalizing l with
  | nil => by_cases hv : v = unlistedByte <;> simp [write, read, hv]
  | cons c m ih =>
    obtain ⟨b, u⟩ := c
    have hm := h
    simp only [wfFrom, Bool.and_eq_true, decide_eq_true_eq] at h
    rcases Nat.lt_trichotomy a b with hab | hab | hab
    · by_cases hv : v = unlistedByte
      · have hne : a ≠ b := by omega
        simp only [write, if_pos hab, hv, if_true, read, if_neg hne]
        exact read_below h.2 (by omega)
      · simp [write, read, hab, hv]
    · subst hab
      by_cases hv : v = unlistedByte
      · simp only [write, lt_self_iff_false, if_false, hv, if_true]
        exact read_below h.2 (by omega)
      · simp [write, read, hv]
    · have h1 : ¬ a < b := by omega
      have h2 : a ≠ b := by omega
      simp only [write, if_neg h1, if_neg h2, read]
      exact ih h.2

/-- Writing one byte changes no other. -/
theorem read_write_other {m : Memory} (a : Nat) (v : Byte) {c : Nat} (hc : c ≠ a) :
    read (write m a v) c = read m c := by
  induction m with
  | nil => by_cases hv : v = unlistedByte <;> simp [write, read, hv, hc]
  | cons d m ih =>
    obtain ⟨b, u⟩ := d
    rcases Nat.lt_trichotomy a b with hab | hab | hab
    · by_cases hv : v = unlistedByte <;> simp [write, read, hab, hv, hc]
    · subst hab
      by_cases hv : v = unlistedByte <;> simp [write, read, hv, hc]
    · have h1 : ¬ a < b := by omega
      have h2 : a ≠ b := by omega
      simp only [write, if_neg h1, if_neg h2, read, ih]

/-- Writing a byte inside data memory keeps the canonical form. -/
theorem write_wfFrom {m : Memory} {l a : Nat} (v : Byte) (h : wfFrom l m = true) (hl : l ≤ a)
    (ha : a < dataMemorySize) : wfFrom l (write m a v) = true := by
  induction m generalizing l with
  | nil => by_cases hv : v = unlistedByte <;> simp [write, wfFrom, hv, hl, ha]
  | cons d m ih =>
    obtain ⟨b, u⟩ := d
    have hm := h
    simp only [wfFrom, Bool.and_eq_true, decide_eq_true_eq] at h
    obtain ⟨⟨⟨hlb, hb⟩, hu⟩, htail⟩ := h
    rcases Nat.lt_trichotomy a b with hab | hab | hab
    · by_cases hv : v = unlistedByte
      · simpa only [write, if_pos hab, hv, if_true] using hm
      · simp only [write, if_pos hab, if_neg hv, wfFrom, Bool.and_eq_true, decide_eq_true_eq]
        exact ⟨⟨⟨hl, ha⟩, hv⟩, ⟨⟨hab, hb⟩, hu⟩, htail⟩
    · subst hab
      by_cases hv : v = unlistedByte
      · simp only [write, lt_self_iff_false, if_false, hv, if_true]
        exact wfFrom_mono (by omega) htail
      · simp only [write, lt_self_iff_false, if_false, if_true, if_neg hv, wfFrom, Bool.and_eq_true,
          decide_eq_true_eq]
        exact ⟨⟨⟨hl, ha⟩, hv⟩, htail⟩
    · have h1 : ¬ a < b := by omega
      have h2 : a ≠ b := by omega
      simp only [write, if_neg h1, if_neg h2, wfFrom, Bool.and_eq_true, decide_eq_true_eq]
      exact ⟨⟨⟨hlb, hb⟩, hu⟩, ih htail (by omega)⟩

/-- Writing a byte inside data memory keeps the canonical form. -/
theorem write_wf {m : Memory} {a : Nat} (v : Byte) (h : wf m = true) (ha : a < dataMemorySize) :
    wf (write m a v) = true :=
  write_wfFrom v h (Nat.zero_le a) ha

/-- Copying an image that fits in data memory keeps the canonical form. -/
theorem copyImage_wf {m : Memory} (bs : List Byte) (k : Nat) (h : wf m = true)
    (hk : k + bs.length ≤ dataMemorySize) : wf (copyImage m k bs) = true := by
  induction bs generalizing m k with
  | nil => exact h
  | cons b bs ih =>
    simp only [List.length_cons] at hk
    exact ih (k + 1) (write_wf b h (by omega)) (by omega)

end Memory

/-- The memory of the reset state is in canonical form. -/
theorem reset_mem_wf : Memory.wf State.reset.mem = true := rfl

/-- An effective address is a byte index below 2^16. -/
theorem byteIndex_eq (ea : Word) : byteIndex ea = ea.toNat := by
  have : ea.toNat < 2 ^ 16 := ea.isLt
  simp only [byteIndex, BitVec.toNat_setWidth]
  omega

/-- A word's second byte lies inside data memory, and is another byte than the first. -/
theorem hiIndex_spec {p : HiByteAtFFFF} {ea : Word} {h : Nat} (hh : hiIndex p ea = some h) :
    h < dataMemorySize ∧ h ≠ byteIndex ea := by
  have hlt : ea.toNat < 2 ^ 16 := ea.isLt
  rw [byteIndex_eq]
  unfold hiIndex at hh
  split at hh
  · next he =>
    subst he
    cases p <;> simp only [Option.some.injEq, reduceCtorEq] at hh <;> subst hh <;> decide
  · simp only [Option.some.injEq, byteIndex_eq] at hh
    subst hh
    simp only [dataMemorySize]
    omega

/-- What a store does: it changes memory alone, and keeps its canonical form. -/
theorem memWrite_spec {w : Width} {ea v : Word} {s t : State} (h : memWrite w ea v s = some t) :
    t = { s with mem := t.mem } ∧ (Memory.wf s.mem = true → Memory.wf t.mem = true) := by
  have hb : byteIndex ea < dataMemorySize := by
    have : ea.toNat < 2 ^ 16 := ea.isLt
    rw [byteIndex_eq]; simp only [dataMemorySize]; omega
  unfold memWrite at h
  cases w with
  | byte =>
    simp only [Option.some.injEq] at h
    subst h
    exact ⟨rfl, fun hw => Memory.write_wf _ hw hb⟩
  | word =>
    simp only at h
    split at h
    · next k hk =>
      simp only [Option.some.injEq] at h
      subst h
      exact ⟨rfl, fun hw =>
        Memory.write_wf _ (Memory.write_wf _ hw hb) (hiIndex_spec hk).1⟩
    · exact absurd h (by simp)

end Sys2Proof.Machine
end

