-- ==== Sys2Proof/Laws/Exec.lean ====
section
/-! SUPPORT. What each shared operation of the execute datapath can do, what any instruction can do,
and what a step can do: one inversion lemma each, for later proofs to cite. -/

namespace Sys2Proof.Machine

/-! ## Slices and destinations -/

/-- A register write changes the register file alone. -/
theorem writeSlice_spec (r : Slice) (v : Word) (s : State) :
    writeSlice r v s = { s with regs := (writeSlice r v s).regs } := by
  cases r <;> rfl

/-- A register write leaves every register but the slice's own. -/
theorem writeSlice_reg_other (r : Slice) (v : Word) (s : State) {n : RegName} (h : n ≠ r.name) :
    (writeSlice r v s).reg n = s.reg n := by
  cases r <;> exact Regs.get_set_other _ h _

/-- What writing a destination does: it changes the register file or memory, nothing else, and keeps
memory's canonical form. -/
theorem writeLoc_spec {w : Width} {dst : Loc} {v : Word} {s t : State}
    (h : writeLoc w dst v s = some t) :
    t = { s with regs := t.regs, mem := t.mem } ∧
      (Memory.wf s.mem = true → Memory.wf t.mem = true) := by
  cases dst with
  | reg r =>
    simp only [writeLoc, Option.some.injEq] at h
    subst h
    have hr := writeSlice_spec r v s
    exact ⟨by rw [hr], by rw [hr]; exact id⟩
  | mem m =>
    obtain ⟨ht, hw⟩ := memWrite_spec (h : memWrite w _ v s = some t)
    exact ⟨by rw [ht], hw⟩

/-! ## The shared operations -/

/-- What every mov can do. -/
theorem moveOp_cases {i : Instr} {w : Width} {dst : Loc} {src : Operand} {s t : State}
    (h : moveOp i w dst src s = .next t) :
    t = raise (wordAtFFFFRecord i s.ip) s ∨
      ∃ v u, readOp w src s = some v ∧ writeLoc w dst v s = some u ∧ t = advance i u := by
  unfold moveOp at h
  cases hv : readOp w src s with
  | none =>
    simp only [hv, raiseWordAtFFFF, Host.Outcome.next.injEq] at h
    exact .inl h.symm
  | some v =>
    simp only [hv] at h
    cases hu : writeLoc w dst v s with
    | none =>
      simp only [hu, raiseWordAtFFFF, Host.Outcome.next.injEq] at h
      exact .inl h.symm
    | some u =>
      simp only [hu, Host.Outcome.next.injEq] at h
      exact .inr ⟨v, u, rfl, hu, h.symm⟩

/-- What add and sub can do. -/
theorem updateOp_cases {a : Arith} {i : Instr} {w : Width} {dst : Loc} {src : Operand} {s t : State}
    (h : updateOp a i w dst src s = .next t) :
    t = raise (wordAtFFFFRecord i s.ip) s ∨
      ∃ d v u, readOp w dst.operand s = some d ∧ readOp w src s = some v ∧
        writeLoc w dst (arithResult a w d v) s = some u ∧
        t = advance i (flagUpdate w (arithResult a w d v) u) := by
  unfold updateOp at h
  cases hd : readOp w dst.operand s with
  | none =>
    simp only [hd, raiseWordAtFFFF, Host.Outcome.next.injEq] at h
    exact .inl h.symm
  | some d =>
    cases hv : readOp w src s with
    | none =>
      simp only [hd, hv, raiseWordAtFFFF, Host.Outcome.next.injEq] at h
      exact .inl h.symm
    | some v =>
      simp only [hd, hv] at h
      cases hu : writeLoc w dst (arithResult a w d v) s with
      | none =>
        simp only [hu, raiseWordAtFFFF, Host.Outcome.next.injEq] at h
        exact .inl h.symm
      | some u =>
        simp only [hu, Host.Outcome.next.injEq] at h
        exact .inr ⟨d, v, u, rfl, rfl, hu, h.symm⟩

/-- What cmp can do. -/
theorem compareOp_cases {i : Instr} {w : Width} {dst : Loc} {src : Operand} {s t : State}
    (h : compareOp i w dst src s = .next t) :
    t = raise (wordAtFFFFRecord i s.ip) s ∨
      ∃ d v, readOp w dst.operand s = some d ∧ readOp w src s = some v ∧
        t = advance i (flagUpdate w (arithResult .cmp w d v) s) := by
  unfold compareOp at h
  cases hd : readOp w dst.operand s with
  | none =>
    simp only [hd, raiseWordAtFFFF, Host.Outcome.next.injEq] at h
    exact .inl h.symm
  | some d =>
    cases hv : readOp w src s with
    | none =>
      simp only [hd, hv, raiseWordAtFFFF, Host.Outcome.next.injEq] at h
      exact .inl h.symm
    | some v =>
      simp only [hd, hv, Host.Outcome.next.injEq] at h
      exact .inr ⟨d, v, rfl, rfl, h.symm⟩

/-! ## Any instruction -/

/-- The four ways an instruction's meaning can leave the state. -/
inductive Effect (i : Instr) (s t : State) : Prop where
  | faulted (h : t = raise (wordAtFFFFRecord i s.ip) s)
  | moved (w : Width) (dst : Loc) (v : Word) (u : State) (hu : writeLoc w dst v s = some u)
      (h : t = advance i u)
  | updated (w : Width) (dst : Loc) (r : Word) (u : State) (hu : writeLoc w dst r s = some u)
      (h : t = advance i (flagUpdate w r u))
  | compared (w : Width) (r : Word) (h : t = advance i (flagUpdate w r s))
  | jumped (target : Word) (h : t = s.setIp target)

theorem Effect.of_move {i : Instr} {w : Width} {dst : Loc} {src : Operand} {s t : State}
    (h : moveOp i w dst src s = .next t) : Effect i s t := by
  obtain h | ⟨v, u, -, hu, h⟩ := moveOp_cases h
  · exact .faulted h
  · exact .moved w dst v u hu h

theorem Effect.of_update {a : Arith} {i : Instr} {w : Width} {dst : Loc} {src : Operand}
    {s t : State} (h : updateOp a i w dst src s = .next t) : Effect i s t := by
  obtain h | ⟨d, v, u, -, -, hu, h⟩ := updateOp_cases h
  · exact .faulted h
  · exact .updated w dst _ u hu h

theorem Effect.of_compare {i : Instr} {w : Width} {dst : Loc} {src : Operand} {s t : State}
    (h : compareOp i w dst src s = .next t) : Effect i s t := by
  obtain h | ⟨d, v, -, -, h⟩ := compareOp_cases h
  · exact .faulted h
  · exact .compared w _ h

theorem Effect.of_fallThrough {i j : Instr} {s t : State} (h : fallThrough j s = .next t) :
    Effect i s t :=
  .jumped (s.ip + BitVec.ofNat 16 j.size) (by
    simp only [fallThrough, Host.Outcome.next.injEq] at h
    exact h.symm)

theorem Effect.of_jnz {d : Byte} {s t : State} (h : execJnz d s = .next t) :
    Effect (.jnz d) s t := by
  unfold execJnz at h
  split at h
  · simp only [Host.Outcome.next.injEq] at h
    exact .jumped _ h.symm
  · exact .of_fallThrough (j := .jnz d) h

/-- What any instruction can do. -/
theorem exec_effect {i : Instr} {s t : State} (h : exec i s = .next t) : Effect i s t := by
  cases i with
  | movRmReg | movImmRm | movImmReg | movMemToAcc | movAccToMem =>
    simp only [exec, execMovRmReg, execMovImmRm, execMovImmReg, execMovMemToAcc, execMovAccToMem] at h
    exact .of_move h
  | addRmReg | addGrpImm | addAccImm | subRmReg | subGrpImm | subAccImm =>
    simp only [exec, execAddRmReg, execAddGrpImm, execAddAccImm, execSubRmReg, execSubGrpImm,
      execSubAccImm] at h
    exact .of_update h
  | cmpRmReg | cmpGrpImm | cmpAccImm =>
    simp only [exec, execCmpRmReg, execCmpGrpImm, execCmpAccImm] at h
    exact .of_compare h
  | jnz d => exact .of_jnz h
  | je | jl | jle | jb | jbe | jp | jo | js | jnl | jg | jnb | ja | jnp | jno | jns | loop | loopz
    | loopnz | jcxz => exact .of_fallThrough h

theorem moveOp_next (i : Instr) (w : Width) (dst : Loc) (src : Operand) (s : State) :
    ∃ t, moveOp i w dst src s = .next t := by
  unfold moveOp raiseWordAtFFFF
  split
  · exact ⟨_, rfl⟩
  · split <;> exact ⟨_, rfl⟩

theorem updateOp_next (a : Arith) (i : Instr) (w : Width) (dst : Loc) (src : Operand) (s : State) :
    ∃ t, updateOp a i w dst src s = .next t := by
  unfold updateOp raiseWordAtFFFF
  split
  · split <;> exact ⟨_, rfl⟩
  · exact ⟨_, rfl⟩

theorem compareOp_next (i : Instr) (w : Width) (dst : Loc) (src : Operand) (s : State) :
    ∃ t, compareOp i w dst src s = .next t := by
  unfold compareOp raiseWordAtFFFF
  split <;> exact ⟨_, rfl⟩

/-- Every instruction's meaning answers a next state: none faults or refuses. -/
theorem exec_next (i : Instr) (s : State) : ∃ t, exec i s = .next t := by
  cases i with
  | movRmReg | movImmRm | movImmReg | movMemToAcc | movAccToMem =>
    simp only [exec, execMovRmReg, execMovImmRm, execMovImmReg, execMovMemToAcc, execMovAccToMem]
    exact moveOp_next ..
  | addRmReg | addGrpImm | addAccImm | subRmReg | subGrpImm | subAccImm =>
    simp only [exec, execAddRmReg, execAddGrpImm, execAddAccImm, execSubRmReg, execSubGrpImm,
      execSubAccImm]
    exact updateOp_next ..
  | cmpRmReg | cmpGrpImm | cmpAccImm =>
    simp only [exec, execCmpRmReg, execCmpGrpImm, execCmpAccImm]
    exact compareOp_next ..
  | jnz d => simp only [exec, execJnz]; split <;> exact ⟨_, rfl⟩
  | je | jl | jle | jb | jbe | jp | jo | js | jnl | jg | jnb | ja | jnp | jno | jns | loop | loopz
    | loopnz | jcxz => exact ⟨_, rfl⟩

/-- No instruction writes the image, the parameters or the listing. -/
theorem Effect.run_fixed {i : Instr} {s t : State} (h : Effect i s t) :
    t.code = s.code ∧ t.params = s.params ∧ t.listing = s.listing := by
  cases h with
  | faulted h => subst h; exact ⟨rfl, rfl, rfl⟩
  | moved w dst v u hu h => subst h; rw [(writeLoc_spec hu).1]; exact ⟨rfl, rfl, rfl⟩
  | updated w dst r u hu h => subst h; rw [(writeLoc_spec hu).1]; exact ⟨rfl, rfl, rfl⟩
  | compared w r h => subst h; exact ⟨rfl, rfl, rfl⟩
  | jumped a h => subst h; exact ⟨rfl, rfl, rfl⟩

/-! ## A step -/

/-- What a step can do: it is taken in `Running`, and it raises a decode fault, or builds an
instruction and takes it in the run's mode. -/
theorem step_cases {s t : State} (h : step s = .next t) :
    s.runState = .running ∧ s.codeLen ≤ maxCodeLen ∧
      ((∃ f, decode (fetchWindow s) = .fault f ∧ t = raise (decodeFaultRecord s.ip f) s) ∨
        ∃ i, decode (fetchWindow s) = .ok i ∧
          ((s.params.mode = .disassemble ∧ t = complete i (advance i s)) ∨
            (s.params.mode = .execute ∧ ∃ u, exec i s = .next u ∧ t = complete i u))) := by
  unfold step takeStep at h
  split at h
  · exact absurd h (by simp)
  · exact absurd h (by simp)
  · next hrun =>
    refine ⟨hrun, ?_⟩
    split at h
    · next hlen =>
      refine ⟨hlen, ?_⟩
      unfold runningStep at h
      split at h
      · next f hf =>
        simp only [Host.Outcome.next.injEq] at h
        exact .inl ⟨f, hf, h.symm⟩
      · next i hi =>
        refine .inr ⟨i, hi, ?_⟩
        split at h
        · next hm =>
          simp only [disassembleStep, Host.Outcome.next.injEq] at h
          exact .inl ⟨hm, h.symm⟩
        · next hm =>
          obtain ⟨u, hu⟩ := exec_next i s
          simp only [executeStep, hu, Host.Outcome.next.injEq] at h
          exact .inr ⟨hm, u, hu, h.symm⟩
    · exact absurd h (by simp)

/-- The end of a step writes the run status and the listing alone. -/
theorem complete_fields (i : Instr) (t : State) :
    (complete i t).regs = t.regs ∧ (complete i t).flags = t.flags ∧ (complete i t).ip = t.ip ∧
      (complete i t).mem = t.mem ∧ (complete i t).code = t.code ∧
      (complete i t).params = t.params := by
  unfold complete settle
  split <;> (try split) <;> exact ⟨rfl, rfl, rfl, rfl, rfl, rfl⟩

/-! ## The fault signal -/

@[simp] theorem faultSignal_running : RunState.running.faultSignal = 0 := rfl
@[simp] theorem faultSignal_ended : RunState.ended.faultSignal = 0 := rfl

/-- The signal of a recorded fault is its code. -/
theorem faultSignal_faulted (r : FaultRecord) :
    (RunState.faulted r).faultSignal.toNat = r.cause.code := by
  obtain ⟨c, -, -⟩ := r
  cases c <;> rfl

/-- The decoder's fault signal is that of the record the step makes of the fault. -/
theorem decodeFault_signal (ipStart : Word) (f : DecodeFault) :
    (RunState.faulted (decodeFaultRecord ipStart f)).faultSignal = f.signal := by
  cases f <;> rfl

/-- What the signals of a step can be: the decoder's on a decode fault, the decoder's in Disassemble mode,
and in Execute mode the record with the fault the meaning raises. -/
theorem stepSignals_cases (s : State) :
    (∃ f, decode (fetchWindow s) = .fault f ∧ stepSignals s = ⟨f.signal, none⟩) ∨
      ∃ i, decode (fetchWindow s) = .ok i ∧
        ((s.params.mode = .disassemble ∧ stepSignals s = ⟨0, some (recordSignals i.record)⟩) ∨
          (s.params.mode = .execute ∧
            stepSignals s = ⟨answerFaultSignal (exec i s), some (recordSignals i.record)⟩)) := by
  cases h : decode (fetchWindow s) with
  | fault f => exact .inl ⟨f, rfl, by simp only [stepSignals, h, Decoded.signals]⟩
  | ok i =>
    refine .inr ⟨i, rfl, ?_⟩
    cases hm : s.params.mode with
    | disassemble => exact .inl ⟨rfl, by simp only [stepSignals, h, hm, Decoded.signals]⟩
    | execute => exact .inr ⟨rfl, by simp only [stepSignals, h, hm, Decoded.signals]⟩

end Sys2Proof.Machine
end

