-- ==== Sys2Proof/Laws/PerInstr.lean ====
section
/-! SUPPORT. Facts about every instruction as syntax, one lemma a constructor: the encoding of an
instruction has the length of 30_encoding.md R84, which is 1 to 6 bytes (R70). -/

namespace Sys2Proof.Laws

theorem memForm_encode_length (reg : BitVec 3) (m : MemForm) :
    (m.encode reg).length = 1 + m.dispBytes ∧ m.dispBytes ≤ 2 := by
  cases m <;> simp [MemForm.encode, MemForm.dispBytes, wordBytes]

theorem rm_encode_length (reg : BitVec 3) (rm : Rm) :
    (rm.encode reg).length = 1 + rm.dispBytes ∧ rm.dispBytes ≤ 2 := by
  cases rm with
  | reg r => simp [Rm.encode, Rm.dispBytes]
  | mem m => exact memForm_encode_length reg m

theorem imm_bytes_length (imm : Imm) :
    imm.bytes.length = imm.dataBytes ∧ 1 ≤ imm.dataBytes ∧ imm.dataBytes ≤ 2 := by
  cases imm <;> simp [Imm.bytes, Imm.dataBytes, wordBytes]

theorem grpImm_bytes_length (imm : GrpImm) :
    imm.bytes.length = imm.dataBytes ∧ 1 ≤ imm.dataBytes ∧ imm.dataBytes ≤ 2 := by
  cases imm <;> simp [GrpImm.bytes, GrpImm.dataBytes, wordBytes]

namespace EncodedLength

/-- The encoding has the length of the form, between 1 and 6 bytes. -/
def Statement (i : Instr) : Prop := (encode i).length = i.size ∧ 1 ≤ i.size ∧ i.size ≤ 6

theorem movRmReg (dir : Dir) (w : Width) (reg : Slice) (rm : Rm) :
    Statement (.movRmReg dir w reg rm) := by
  have h := rm_encode_length reg.encIndex rm
  simp only [Statement, encode, encodeRmReg, Instr.size, List.length_cons]
  omega

theorem movImmRm (m : MemForm) (imm : Imm) : Statement (.movImmRm m imm) := by
  have h := memForm_encode_length 0b000 m
  have hi := imm_bytes_length imm
  simp only [Statement, encode, Instr.size, List.length_append, List.length_cons]
  omega

theorem movImmReg (reg : Slice) (imm : Imm) : Statement (.movImmReg reg imm) := by
  have h := imm_bytes_length imm
  simp only [Statement, encode, Instr.size, List.length_cons]
  omega

theorem movMemToAcc (w : Width) (addr : Word) : Statement (.movMemToAcc w addr) :=
  ⟨rfl, by simp [Instr.size]⟩

theorem movAccToMem (w : Width) (addr : Word) : Statement (.movAccToMem w addr) :=
  ⟨rfl, by simp [Instr.size]⟩

theorem addRmReg (dir : Dir) (w : Width) (reg : Slice) (rm : Rm) :
    Statement (.addRmReg dir w reg rm) := by
  have h := rm_encode_length reg.encIndex rm
  simp only [Statement, encode, encodeRmReg, Instr.size, List.length_cons]
  omega

theorem addGrpImm (rm : Rm) (imm : GrpImm) : Statement (.addGrpImm rm imm) := by
  have h := rm_encode_length (Arith.extBits .add) rm
  have hi := grpImm_bytes_length imm
  simp only [Statement, encode, encodeGrpImm, Instr.size, List.length_append, List.length_cons]
  omega

theorem addAccImm (imm : Imm) : Statement (.addAccImm imm) := by
  have h := imm_bytes_length imm
  simp only [Statement, encode, encodeAccImm, Instr.size, List.length_cons]
  omega

theorem subRmReg (dir : Dir) (w : Width) (reg : Slice) (rm : Rm) :
    Statement (.subRmReg dir w reg rm) := by
  have h := rm_encode_length reg.encIndex rm
  simp only [Statement, encode, encodeRmReg, Instr.size, List.length_cons]
  omega

theorem subGrpImm (rm : Rm) (imm : GrpImm) : Statement (.subGrpImm rm imm) := by
  have h := rm_encode_length (Arith.extBits .sub) rm
  have hi := grpImm_bytes_length imm
  simp only [Statement, encode, encodeGrpImm, Instr.size, List.length_append, List.length_cons]
  omega

theorem subAccImm (imm : Imm) : Statement (.subAccImm imm) := by
  have h := imm_bytes_length imm
  simp only [Statement, encode, encodeAccImm, Instr.size, List.length_cons]
  omega

theorem cmpRmReg (dir : Dir) (w : Width) (reg : Slice) (rm : Rm) :
    Statement (.cmpRmReg dir w reg rm) := by
  have h := rm_encode_length reg.encIndex rm
  simp only [Statement, encode, encodeRmReg, Instr.size, List.length_cons]
  omega

theorem cmpGrpImm (rm : Rm) (imm : GrpImm) : Statement (.cmpGrpImm rm imm) := by
  have h := rm_encode_length (Arith.extBits .cmp) rm
  have hi := grpImm_bytes_length imm
  simp only [Statement, encode, encodeGrpImm, Instr.size, List.length_append, List.length_cons]
  omega

theorem cmpAccImm (imm : Imm) : Statement (.cmpAccImm imm) := by
  have h := imm_bytes_length imm
  simp only [Statement, encode, encodeAccImm, Instr.size, List.length_cons]
  omega

theorem je (d : Byte) : Statement (.je d) := ⟨rfl, by simp [Instr.size]⟩
theorem jl (d : Byte) : Statement (.jl d) := ⟨rfl, by simp [Instr.size]⟩
theorem jle (d : Byte) : Statement (.jle d) := ⟨rfl, by simp [Instr.size]⟩
theorem jb (d : Byte) : Statement (.jb d) := ⟨rfl, by simp [Instr.size]⟩
theorem jbe (d : Byte) : Statement (.jbe d) := ⟨rfl, by simp [Instr.size]⟩
theorem jp (d : Byte) : Statement (.jp d) := ⟨rfl, by simp [Instr.size]⟩
theorem jo (d : Byte) : Statement (.jo d) := ⟨rfl, by simp [Instr.size]⟩
theorem js (d : Byte) : Statement (.js d) := ⟨rfl, by simp [Instr.size]⟩
theorem jnz (d : Byte) : Statement (.jnz d) := ⟨rfl, by simp [Instr.size]⟩
theorem jnl (d : Byte) : Statement (.jnl d) := ⟨rfl, by simp [Instr.size]⟩
theorem jg (d : Byte) : Statement (.jg d) := ⟨rfl, by simp [Instr.size]⟩
theorem jnb (d : Byte) : Statement (.jnb d) := ⟨rfl, by simp [Instr.size]⟩
theorem ja (d : Byte) : Statement (.ja d) := ⟨rfl, by simp [Instr.size]⟩
theorem jnp (d : Byte) : Statement (.jnp d) := ⟨rfl, by simp [Instr.size]⟩
theorem jno (d : Byte) : Statement (.jno d) := ⟨rfl, by simp [Instr.size]⟩
theorem jns (d : Byte) : Statement (.jns d) := ⟨rfl, by simp [Instr.size]⟩
theorem loop (d : Byte) : Statement (.loop d) := ⟨rfl, by simp [Instr.size]⟩
theorem loopz (d : Byte) : Statement (.loopz d) := ⟨rfl, by simp [Instr.size]⟩
theorem loopnz (d : Byte) : Statement (.loopnz d) := ⟨rfl, by simp [Instr.size]⟩
theorem jcxz (d : Byte) : Statement (.jcxz d) := ⟨rfl, by simp [Instr.size]⟩

end EncodedLength

end Sys2Proof.Laws
end

