-- ==== Sys2Proof/Tests/Slice0.lean ====
section
/-! SUPPORT. Small tests of the model against spec/95_test_vectors.md and the encodings of
spec/30_encoding.md, and a concrete witness for the hypotheses of each statement. -/

open Sys2Proof Sys2Proof.Machine Sys2Proof.Statements

namespace Sys2Proof.Tests

set_option maxRecDepth 20000

/-! ## Helpers -/

/-- A run about to take its first step, with some registers and memory set. -/
def boot (code : List Byte) (regs : Regs := Regs.reset) (mem : Memory := []) (flags : Word := 0)
    (p : Params := Params.default) : State :=
  { State.start code p mem with regs := regs, flags := flags }

/-- The step answers a next state of which something holds. -/
def after (s : State) (p : State → Bool) : Bool :=
  match step s with
  | .next t => p t
  | .fault _ => false
  | .refused _ => false

/-- The meaning answers a next state of which something holds. -/
def execAfter (i : Instr) (s : State) (p : State → Bool) : Bool :=
  match exec i s with
  | .next t => p t
  | .fault _ => false
  | .refused _ => false

/-- The default parameters with another HI_BYTE_AT_FFFF. -/
def hiParams (h : HiByteAtFFFF) : Params := { Params.default with hiByteAtFFFF := h }

/-- The default parameters in Disassemble mode. -/
def disParams : Params := { Params.default with mode := .disassemble }

/-- The default parameters with CODE_IN_DATA_MEMORY. -/
def inMemParams : Params := { Params.default with codeInDataMemory := true }

/-- The step ends the run with a fault record. -/
def faultsWith (s : State) (r : FaultRecord) : Bool :=
  after s fun t => decide (t = { s with runState := .faulted r })

/-! ## WellFormed: each check refuses an ill-formed term -/

theorem test_wf_bp_without_displacement : Instr.wf (.movImmRm (.noDisp .bp) (.byte 1)) = false := by
  decide

theorem test_wf_reg_width : Instr.wf (.movRmReg .toReg .word (.low .a) (.reg (.word .b))) = false := by
  decide

theorem test_wf_rm_width : Instr.wf (.addRmReg .toRm .byte (.high .d) (.reg (.word .si))) = false := by
  decide

theorem test_wf_rm_memory : Instr.wf (.subRmReg .toRm .byte (.low .a) (.mem (.noDisp .bp))) = false := by
  decide

theorem test_wf_imm_reg_width : Instr.wf (.movImmReg (.word .sp) (.byte 1)) = false := by decide

theorem test_wf_grp_imm_width : Instr.wf (.cmpGrpImm (.reg (.high .a)) (.sext 1)) = false := by decide

theorem test_wf_accepts : Instr.wf (.cmpGrpImm (.mem (.disp8 .bp 0)) (.sext 1)) = true := by decide

/-! ## Decoding: words written out from 30_encoding.md R73 -/

/-- `100010 0 1 | 11 000 011` -/
theorem test_decode_movRmReg :
    decode [0b10001001, 0b11000011] = .ok (.movRmReg .toRm .word (.word .a) (.reg (.word .b))) := by
  decide

/-- `1100011 1 | 00 000 111 | 34 | 12` -/
theorem test_decode_movImmRm :
    decode [0b11000111, 0b00000111, 0x34, 0x12] = .ok (.movImmRm (.noDisp .bx) (.word 0x1234)) := by
  decide

/-- `1011 0 111 | 7F` -/
theorem test_decode_movImmReg :
    decode [0b10110111, 0x7F] = .ok (.movImmReg (.high .b) (.byte 0x7F)) := by decide

/-- `1010000 0 | 34 | 12` -/
theorem test_decode_movMemToAcc :
    decode [0b10100000, 0x34, 0x12] = .ok (.movMemToAcc .byte 0x1234) := by decide

/-- `1010001 0 | 34 | 12` -/
theorem test_decode_movAccToMem :
    decode [0b10100010, 0x34, 0x12] = .ok (.movAccToMem .byte 0x1234) := by decide

/-- `000000 1 0 | 01 111 110 | 05` -/
theorem test_decode_addRmReg :
    decode [0b00000010, 0b01111110, 0x05] =
      .ok (.addRmReg .toReg .byte (.high .b) (.mem (.disp8 .bp 0x05))) := by decide

/-- `100000 0 1 | 10 000 001 | 00 | 80 | 34 | 12` -/
theorem test_decode_addGrpImm :
    decode [0b10000001, 0b10000001, 0x00, 0x80, 0x34, 0x12] =
      .ok (.addGrpImm (.mem (.disp16 .bxdi 0x8000)) (.word 0x1234)) := by decide

/-- `0000010 0 | 80` -/
theorem test_decode_addAccImm : decode [0b00000100, 0x80] = .ok (.addAccImm (.byte 0x80)) := by decide

/-- `001010 1 1 | 00 110 110 | 34 | 12` -/
theorem test_decode_subRmReg :
    decode [0b00101011, 0b00110110, 0x34, 0x12] =
      .ok (.subRmReg .toReg .word (.word .si) (.mem (.direct 0x1234))) := by decide

/-- `100000 1 1 | 11 101 001 | FF` -/
theorem test_decode_subGrpImm :
    decode [0b10000011, 0b11101001, 0xFF] = .ok (.subGrpImm (.reg (.word .c)) (.sext 0xFF)) := by decide

/-- `0010110 1 | 01 | 00` -/
theorem test_decode_subAccImm : decode [0b00101101, 0x01, 0x00] = .ok (.subAccImm (.word 1)) := by
  decide

/-- `001110 0 0 | 11 000 100` -/
theorem test_decode_cmpRmReg :
    decode [0b00111000, 0b11000100] = .ok (.cmpRmReg .toRm .byte (.low .a) (.reg (.high .a))) := by
  decide

/-- `100000 0 0 | 00 111 010 | 80` -/
theorem test_decode_cmpGrpImm :
    decode [0b10000000, 0b00111010, 0x80] = .ok (.cmpGrpImm (.mem (.noDisp .bpsi)) (.byte 0x80)) := by
  decide

/-- `0011110 1 | 00 | 80` -/
theorem test_decode_cmpAccImm : decode [0b00111101, 0x00, 0x80] = .ok (.cmpAccImm (.word 0x8000)) := by
  decide

/-- `0111 cccc | disp8` (43_jumps.md R201-R216) -/
theorem test_decode_conditional_jumps :
    decode [0b01110100, 0x80] = .ok (.je 0x80) ∧ decode [0b01111100, 0x80] = .ok (.jl 0x80) ∧
    decode [0b01111110, 0x80] = .ok (.jle 0x80) ∧ decode [0b01110010, 0x80] = .ok (.jb 0x80) ∧
    decode [0b01110110, 0x80] = .ok (.jbe 0x80) ∧ decode [0b01111010, 0x80] = .ok (.jp 0x80) ∧
    decode [0b01110000, 0x80] = .ok (.jo 0x80) ∧ decode [0b01111000, 0x80] = .ok (.js 0x80) ∧
    decode [0b01110101, 0x80] = .ok (.jnz 0x80) ∧ decode [0b01111101, 0x80] = .ok (.jnl 0x80) ∧
    decode [0b01111111, 0x80] = .ok (.jg 0x80) ∧ decode [0b01110011, 0x80] = .ok (.jnb 0x80) ∧
    decode [0b01110111, 0x80] = .ok (.ja 0x80) ∧ decode [0b01111011, 0x80] = .ok (.jnp 0x80) ∧
    decode [0b01110001, 0x80] = .ok (.jno 0x80) ∧ decode [0b01111001, 0x80] = .ok (.jns 0x80) := by
  decide

/-- `111000 cc | disp8` (43_jumps.md R217-R220) -/
theorem test_decode_loops :
    decode [0b11100010, 0xFE] = .ok (.loop 0xFE) ∧ decode [0b11100001, 0xFE] = .ok (.loopz 0xFE) ∧
    decode [0b11100000, 0xFE] = .ok (.loopnz 0xFE) ∧ decode [0b11100011, 0xFE] = .ok (.jcxz 0xFE) := by
  decide

/-- spec/opcode_table.json has byte 0 in the most significant position (30_encoding.md R96). -/
theorem test_table_word :
    decodeTableWord 16 0x89C3 = some (.movRmReg .toRm .word (.word .a) (.reg (.word .b))) ∧
    decodeTableWord 8 0xB8 = some (.movImmReg (.word .a) (.word 0)) ∧
    decodeTableWord 16 0x82C0 = none := by decide

/-- The word placed where `step` fetches is decoded and run from reset. -/
theorem test_with_fetch_word :
    after (State.reset.withFetchWord 24 0xB80500) (fun t => t.regs.a == 5 && t.ip == 3) = true := by
  decide

/-! ## Decode faults: 95_test_vectors.md section 2.3 -/

theorem test_fault_unknown_opcode :
    faultsWith (boot [0x0F]) ⟨.unknownOpcode, 0, [0x0F]⟩ = true ∧
    faultsWith (boot [0x80, 0xC8, 0x01]) ⟨.unknownOpcode, 0, [0x80, 0xC8]⟩ = true ∧
    faultsWith (boot [0x82, 0xC8, 0x01]) ⟨.unknownOpcode, 0, [0x82, 0xC8]⟩ = true := by decide

theorem test_fault_malformed :
    faultsWith (boot [0x82, 0xC0]) ⟨.malformedEncoding .signExtendByte, 0, [0x82, 0xC0]⟩ = true ∧
    faultsWith (boot [0xC7, 0xC0, 0x01, 0x00])
      ⟨.malformedEncoding .registerDirect, 0, [0xC7, 0xC0]⟩ = true ∧
    faultsWith (boot [0xC7, 0x0E, 0x00, 0x20, 0x01, 0x00])
      ⟨.malformedEncoding .regField, 0, [0xC7, 0x0E]⟩ = true := by decide

theorem test_fault_truncated :
    faultsWith (boot [0xC7]) ⟨.truncated 1, 0, [0xC7]⟩ = true ∧
    faultsWith (boot [0xB8, 0x05]) ⟨.truncated 2, 0, [0xB8, 0x05]⟩ = true ∧
    faultsWith (boot [0x8B, 0x1E, 0x34]) ⟨.truncated 3, 0, [0x8B, 0x1E, 0x34]⟩ = true ∧
    faultsWith (boot [0x75]) ⟨.truncated 1, 0, [0x75]⟩ = true := by decide

/-- P5: the fault after a completed step keeps `ip` = 3. -/
theorem test_fault_after_step :
    faultsWith { boot [0xB8, 0x01, 0x00, 0x0F, 0x05] with ip := 3 } ⟨.unknownOpcode, 3, [0x0F]⟩ = true := by
  decide

/-! ## Steps: 95_test_vectors.md sections 2.4 to 2.8 -/

theorem test_movRmReg_load_negative_disp :
    after (boot [0x8B, 0x40, 0xFB] { Regs.reset with b := 0x1000, si := 5 }
        [(0x1000, 0x34), (0x1001, 0x12)])
      (fun t => t.regs.a == 0x1234 && t.ip == 3 && t.flags == 0 && t.runState == .ended) = true := by
  decide

theorem test_movRmReg_high_byte :
    after (boot [0x8A, 0xE0] { Regs.reset with a := 0x0012 })
      (fun t => t.regs.a == 0x1212 && t.ip == 2) = true := by decide

theorem test_movImmRm_byte :
    after (boot [0xC6, 0x47, 0x02, 0x07] { Regs.reset with b := 0x3000 })
      (fun t => t.mem == [(0x3002, 0x07)] && t.ip == 4) = true := by decide

theorem test_movImmRm_word :
    after (boot [0xC7, 0x46, 0x00, 0x34, 0x12] { Regs.reset with bp := 0x0400 })
      (fun t => t.mem == [(0x0400, 0x34), (0x0401, 0x12)] && t.ip == 5) = true := by decide

theorem test_movImmReg_high :
    after (boot [0xB4, 0xFF] { Regs.reset with a := 0x0012 })
      (fun t => t.regs.a == 0xFF12 && t.ip == 2) = true := by decide

theorem test_movImmReg_sp :
    after (boot [0xBC, 0xFF, 0xFF]) (fun t => t.regs == { Regs.reset with sp := 0xFFFF }) = true := by
  decide

theorem test_movMemToAcc_word :
    after (boot [0xA1, 0x00, 0x20] Regs.reset [(0x2000, 0x78), (0x2001, 0x56)])
      (fun t => t.regs.a == 0x5678 && t.ip == 3) = true := by decide

theorem test_movMemToAcc_byte :
    after (boot [0xA0, 0x00, 0x20] { Regs.reset with a := 0x1111 } [(0x2000, 0x78)])
      (fun t => t.regs.a == 0x1178 && t.ip == 3) = true := by decide

theorem test_movAccToMem_wrap16 :
    after (boot [0xA3, 0xFF, 0xFF] { Regs.reset with a := 0xCAFE } [] 0 (hiParams .wrap16))
      (fun t => t.mem == [(0x0000, 0xCA), (0xFFFF, 0xFE)] && t.ip == 3) = true := by decide

theorem test_movAccToMem_fault :
    faultsWith (boot [0xA3, 0xFF, 0xFF] { Regs.reset with a := 0xCAFE })
      ⟨.wordAtFFFF 0xFFFF, 0, [0xA3, 0xFF, 0xFF]⟩ = true := by decide

theorem test_addRmReg_byte_flags :
    after (boot [0x00, 0xE0] { Regs.reset with a := 0x8080 })
      (fun t => t.regs.a == 0x8000 && t.flags == 0x0040 && t.ip == 2) = true := by decide

theorem test_addRmReg_memory :
    after (boot [0x01, 0x07] { Regs.reset with a := 0x0102, b := 0x2000 }
        [(0x2000, 0xFF), (0x2001, 0xFF)])
      (fun t => t.mem == [(0x2000, 0x01), (0x2001, 0x01)] && t.flags == 0) = true := by decide

theorem test_addGrpImm_memory :
    after (boot [0x83, 0x06, 0x00, 0x20, 0x01] Regs.reset [(0x2000, 0xFF), (0x2001, 0x7F)])
      (fun t => t.mem == [(0x2001, 0x80)] && t.flags == 0x0080 && t.ip == 5) = true := by decide

theorem test_addGrpImm_negative :
    after (boot [0x83, 0xC0, 0xFD] { Regs.reset with a := 5 })
      (fun t => t.regs.a == 2 && t.flags == 0) = true := by decide

theorem test_addAccImm_byte :
    after (boot [0x04, 0x80] { Regs.reset with a := 0x1280 })
      (fun t => t.regs.a == 0x1200 && t.flags == 0x0040) = true := by decide

theorem test_addAccImm_word :
    after (boot [0x05, 0xFF, 0xFF] { Regs.reset with a := 1 })
      (fun t => t.regs.a == 0 && t.flags == 0x0040 && t.ip == 3) = true := by decide

theorem test_subRmReg_borrow :
    after (boot [0x28, 0xE0] { Regs.reset with a := 0x0100 })
      (fun t => t.regs.a == 0x01FF && t.flags == 0x0080) = true := by decide

theorem test_subRmReg_memory :
    after (boot [0x29, 0x47, 0x02] { Regs.reset with a := 1, b := 0x3000 })
      (fun t => t.mem == [(0x3002, 0xFF), (0x3003, 0xFF)] && t.flags == 0x0080) = true := by decide

theorem test_subGrpImm_sign_extended :
    after (boot [0x83, 0xE9, 0xFF] { Regs.reset with c := 2 })
      (fun t => t.regs.c == 3 && t.flags == 0) = true := by decide

theorem test_subGrpImm_word :
    after (boot [0x81, 0xE9, 0x00, 0x80])
      (fun t => t.regs.c == 0x8000 && t.flags == 0x0080 && t.ip == 4) = true := by decide

theorem test_subAccImm_byte :
    after (boot [0x2C, 0x01] { Regs.reset with a := 0xAB00 })
      (fun t => t.regs.a == 0xABFF && t.flags == 0x0080) = true := by decide

theorem test_subAccImm_word :
    after (boot [0x2D, 0x01, 0x00] { Regs.reset with a := 1 })
      (fun t => t.regs.a == 0 && t.flags == 0x0040) = true := by decide

theorem test_cmpRmReg_order :
    after (boot [0x3B, 0xC3] { Regs.reset with a := 2, b := 3 } [] 0x0040)
      (fun t => t.regs == { Regs.reset with a := 2, b := 3 } && t.flags == 0x0080) = true := by decide

theorem test_cmpRmReg_high_low :
    after (boot [0x38, 0xC4] { Regs.reset with a := 0x0102 })
      (fun t => t.regs.a == 0x0102 && t.flags == 0x0080) = true := by decide

theorem test_cmpGrpImm_memory :
    after (boot [0x80, 0x3E, 0x00, 0x20, 0x80] Regs.reset [(0x2000, 0x80)])
      (fun t => t.mem == [(0x2000, 0x80)] && t.flags == 0x0040 && t.ip == 5) = true := by decide

theorem test_cmpGrpImm_register :
    after (boot [0x83, 0xF8, 0x05] { Regs.reset with a := 5 } [] 0x0080)
      (fun t => t.regs.a == 5 && t.flags == 0x0040) = true := by decide

theorem test_cmpAccImm_word :
    after (boot [0x3D, 0x00, 0x80]) (fun t => t.regs.a == 0 && t.flags == 0x0080) = true := by decide

theorem test_cmpAccImm_byte :
    after (boot [0x3C, 0x01] { Regs.reset with a := 1 })
      (fun t => t.regs.a == 1 && t.flags == 0x0040) = true := by decide

/-- The self-loop and the jump of 95_test_vectors.md section 2.8 that ends at 0xFF84. -/
theorem test_jnz_taken :
    after (boot [0x75, 0xFE, 0x00]) (fun t => t.ip == 0 && t.runState == .running) = true ∧
    after { boot [0x3C, 0x01, 0x75, 0x80] with ip := 2 }
      (fun t => t.ip == 0xFF84 && t.runState == .ended) = true := by decide

theorem test_jnz_not_taken :
    after (boot [0x75, 0x02, 0xB0, 0x07] Regs.reset [] 0x0040)
      (fun t => t.ip == 2 && t.flags == 0x0040 && t.runState == .running) = true := by decide

/-- The nineteen other kinds fall through with ZF set and with ZF clear, and `loop` leaves cx. -/
theorem test_other_jumps_fall_through :
    ([0x70, 0x71, 0x72, 0x73, 0x74, 0x76, 0x77, 0x78, 0x79, 0x7A, 0x7B, 0x7C, 0x7D, 0x7E, 0x7F,
      0xE0, 0xE1, 0xE2, 0xE3] : List Byte).all (fun b =>
        [0x0000, 0x00C0].all fun f =>
          after (boot [b, 0x7F] { Regs.reset with c := 3 } [] f)
            (fun t => t.ip == 2 && t.regs.c == 3 && t.flags == f)) = true := by decide

/-- P6: under CODE_IN_DATA_MEMORY the next fetch sees the store, and otherwise it does not. -/
theorem test_store_into_the_image :
    after (boot [0xC6, 0x06, 0x06, 0x00, 0x09, 0xB4, 0x07] Regs.reset [] 0
        { Params.default with codeInDataMemory := false })
      (fun t => fetchWindow t == [0xB4, 0x07]) = true ∧
    after (State.start [0xC6, 0x06, 0x06, 0x00, 0x09, 0xB4, 0x07] inMemParams [])
      (fun t => fetchWindow t == [0xB4, 0x09]) = true := by decide

/-- Disassemble mode: `75 FE` is listed and only `ip` moves. -/
theorem test_disassemble_jump :
    after (boot [0x75, 0xFE] Regs.reset [] 0 disParams)
      (fun t => t.ip == 2 && t.runState == .ended &&
        listingLines t == ["bits 16", "jnz $+0"]) = true := by decide

/-- Lines of 95_test_vectors.md section 2.2. -/
theorem test_printed_lines :
    printed [0x7F, 0x7F] = some "jg $+129" ∧ printed [0xE1, 0x80] = some "loopz $-126" ∧
    printed [0x81, 0x3E, 0x10, 0x00, 0xFF, 0xFF] = some "cmp [16], word 65535" ∧
    printed [0x8B, 0x87, 0xFF, 0x7F] = some "mov ax, [bx+32767]" ∧
    printed [0x89, 0xF6] = some "mov si, si" := by decide

/-- The signals of a record (10_state.md R38, 30_encoding.md R90). -/
theorem test_record_signals :
    Kind.index (.jump .jnz) = 12 ∧ Kind.index (.data (.arith .cmp)) = 3 ∧
    (MemOperand.direct 7).exprSignal = 8 ∧ (MemOperand.based .bp 7).exprSignal = 6 ∧
    RegName.storageIndex .d = 3 ∧ (Slice.high .c).offset = 1 ∧
    FaultCause.code (.wordAtFFFF 0xFFFF) = 4 := by decide

/-- Vector S4 as signals: mov, word, 3 bytes, the slice (a, 0, 2), bx+si with displacement -5. -/
theorem test_output_signals :
    (decode [0x8B, 0x40, 0xFB]).signals =
      ⟨0, some ⟨0, 1, 3, ⟨1, .reg 0 0 2⟩, ⟨2, .mem 0 0xFFFB⟩⟩⟩ ∧
    (decode [0x75, 0xFB]).signals =
      ⟨0, some ⟨12, 0, 2, ⟨4, .rel 0xFFFFFFFD⟩, ⟨0, .none⟩⟩⟩ ∧
    operandSignals (some (.reg (.high .d))) = ⟨1, .reg 3 1 1⟩ := by decide

/-- The fault codes 1 to 4, and 0 for none (10_state.md R38). -/
theorem test_fault_signals :
    (stepSignals (boot [0x0F])).fault = 1 ∧ (stepSignals (boot [0x82, 0xC0])).fault = 2 ∧
    (stepSignals (boot [0x75])).fault = 3 ∧ (stepSignals (boot [0xA3, 0xFF, 0xFF])).fault = 4 ∧
    (stepSignals (boot [0xA3, 0xFF, 0xFF] Regs.reset [] 0 disParams)).fault = 0 ∧
    (stepSignals (boot [0xA2, 0xFF, 0xFF])).fault = 0 := by decide

/-! ## Witnesses: concrete states and operands that meet the hypotheses of the statements -/

/-- A running state with `mov [8192], ax` at its `ip`, memory listed at both ends. -/
def sample : State := boot [0xA3, 0x00, 0x20] { Regs.reset with a := 0xCAFE, b := 0xFFFE, si := 1 }
  [(0x0000, 0x11), (0xFFFF, 0x22), (0xFFFFF, 0x33)]

/-- The sample with another HI_BYTE_AT_FFFF. -/
def sampleHi (h : HiByteAtFFFF) : State := { sample with params := hiParams h }

/-- Some next state. -/
def answers (i : Instr) (s : State) : Bool := execAfter i s fun _ => true

theorem witness_BitFieldExtractor :
    (1 ≤ 1 ∧ 7 + 1 ≤ 8 ∧ field 0x8B 7 1 = 1) ∧ (1 ≤ 8 ∧ 0 + 8 ≤ 8 ∧ field 0x8B 0 8 = 0x8B) ∧
    (1 ≤ 1 ∧ 1 ≤ 8 ∧ top 0x8B 1 = 1) ∧ (1 ≤ 8 ∧ 8 ≤ 8 ∧ top 0x8B 8 = 0x8B) := by decide

theorem witness_LongestWidthWins :
    classify 0x75 = some (.rel8 .jnz) ∧ classify 0xB8 = some .immReg ∧ classify 0x0F = none := by decide

theorem witness_OpcodeTableIsPrefixFree :
    (tableEntry 4 (top 0xBF 4)).isSome = true ∧ (tableEntry 8 (top 0xE3 8)).isSome = true := by decide

theorem witness_DecodeOfEncode :
    Instr.wf (.cmpGrpImm (.mem (.disp16 .bp 0xFFFF)) (.word 0xFFFF)) = true ∧
    Instr.wf (.movRmReg .toReg .byte (.high .b) (.reg (.low .a))) = true ∧
    Instr.wf (.jcxz 0x80) = true := by decide

theorem witness_EncodeOfDecode :
    decode [0x83, 0xC0, 0xFD, 0x00] = .ok (.addGrpImm (.reg (.word .a)) (.sext 0xFD)) := by decide

/-- A register destination with a memory source, a memory destination with a register source, and a
record of one operand. -/
theorem witness_BuiltRecordInvariants :
    (Instr.wf (.movMemToAcc .byte 0xFFFF) = true ∧
      (Instr.movMemToAcc .byte 0xFFFF).record.op0 = .reg (.low .a)) ∧
    (Instr.wf (.movAccToMem .word 0xFFFF) = true ∧
      (Instr.movAccToMem .word 0xFFFF).record.op0 = .mem (.direct 0xFFFF) ∧
      (Instr.movAccToMem .word 0xFFFF).record.op1 = some (.reg (.word .a))) ∧
    (Instr.wf (.jns 0) = true ∧ (Instr.jns 0).record.op1 = none) := by decide

theorem witness_UnknownOpcodeExactly :
    decode [0x0F] = .fault (.unknownOpcode [0x0F]) ∧
    decode [0x83, 0xC8] = .fault (.unknownOpcode [0x83, 0xC8]) := by decide

theorem witness_MalformedExactly :
    decode [0xC6, 0xC8] = .fault (.malformed .registerDirect [0xC6, 0xC8]) ∧
    decode [0xC7, 0x08] = .fault (.malformed .regField [0xC7, 0x08]) ∧
    decode [0x82, 0xF8] = .fault (.malformed .signExtendByte [0x82, 0xF8]) := by decide

theorem witness_CutInstructionIsTruncated :
    (Instr.wf (.subGrpImm (.mem (.direct 0)) (.word 1)) = true ∧
      0 < (Instr.subGrpImm (.mem (.direct 0)) (.word 1)).size ∧
      5 < (Instr.subGrpImm (.mem (.direct 0)) (.word 1)).size) ∧
    decode [] = .fault (.truncated []) ∧
    decode [0x81, 0x2E, 0x00, 0x00, 0x01] = .fault (.truncated [0x81, 0x2E, 0x00, 0x00, 0x01]) := by
  decide

theorem witness_ResetValues : Params.default.codeInDataMemory = false := by decide

theorem witness_StartLoadsTheImage :
    Memory.wf [(0, 0x11), (0xFFFFF, 0x33)] = true ∧ [0x75, (0xFE : Byte)].length ≤ 65535 ∧
    inMemParams.codeInDataMemory = true := by decide

theorem witness_SliceWrite : RegName.c ≠ (Slice.high .b).name := by decide

theorem witness_MemoryRead :
    hiIndex sample.params.hiByteAtFFFF 0xFFFE = some 0xFFFF ∧
    hiIndex sample.params.hiByteAtFFFF 0x0000 = some 0x0001 ∧
    hiIndex (sampleHi .linear).params.hiByteAtFFFF 0xFFFF = some 0x10000 ∧
    hiIndex (sampleHi .wrap16).params.hiByteAtFFFF 0xFFFF = some 0x00000 := by decide

theorem witness_MemoryWrite :
    Memory.wf sample.mem = true ∧ hiIndex sample.params.hiByteAtFFFF 0xFFFE = some 0xFFFF ∧
    Memory.wf (sampleHi .wrap16).mem = true ∧
    hiIndex (sampleHi .wrap16).params.hiByteAtFFFF 0xFFFF = some 0x00000 := by decide

theorem witness_SecondByteAddress :
    (0xFFFE : Word) ≠ 0xFFFF ∧ sample.params.hiByteAtFFFF = .fault := by decide

/-- Every form of mov: a word that ends at 0xFFFF, a byte at 0xFFFF, and a word at 0xFFFF where that is
no fault. -/
theorem witness_MovResult :
    wordAtFFFF (.movRmReg .toReg .word (.word .a) (.mem (.noDisp .bx))) sample = false ∧
    wordAtFFFF (.movRmReg .toRm .byte (.low .a) (.mem (.noDisp .bxsi))) sample = false ∧
    wordAtFFFF (.movImmRm (.direct 0xFFFF) (.word 1)) (sampleHi .linear) = false ∧
    wordAtFFFF (.movImmReg (.high .a) (.byte 1)) sample = false ∧
    wordAtFFFF (.movMemToAcc .byte 0xFFFF) sample = false ∧
    wordAtFFFF (.movAccToMem .word 0xFFFF) (sampleHi .wrap16) = false := by decide

theorem witness_AddResult :
    wordAtFFFF (.addRmReg .toRm .word (.word .a) (.mem (.noDisp .bx))) sample = false ∧
    wordAtFFFF (.addGrpImm (.mem (.direct 0xFFFF)) (.byte 1)) sample = false ∧
    wordAtFFFF (.addAccImm (.word 0xFFFF)) sample = false := by decide

theorem witness_SubResult :
    wordAtFFFF (.subRmReg .toReg .word (.word .a) (.mem (.noDisp .bx))) sample = false ∧
    wordAtFFFF (.subGrpImm (.mem (.direct 0xFFFF)) (.sext 1)) (sampleHi .linear) = false ∧
    wordAtFFFF (.subAccImm (.byte 0xFF)) sample = false := by decide

theorem witness_CmpResult :
    wordAtFFFF (.cmpRmReg .toRm .byte (.high .d) (.mem (.noDisp .bxsi))) sample = false ∧
    wordAtFFFF (.cmpGrpImm (.reg (.word .di)) (.word 1)) sample = false ∧
    wordAtFFFF (.cmpAccImm (.word 0)) sample = false := by decide

theorem witness_JnzResult :
    sample.flags.getLsbD 6 = false ∧ (boot [] Regs.reset [] 0x0040).flags.getLsbD 6 = true := by decide

theorem witness_WordAtFFFFExactly :
    sample.runState = .running ∧
    wordAtFFFF (.cmpRmReg .toRm .word (.word .d) (.mem (.noDisp .bxsi))) sample = true ∧
    answers (.cmpRmReg .toRm .word (.word .d) (.mem (.noDisp .bxsi))) sample = true := by decide

theorem witness_ReadsBeforeWrites : sample.reg .b ≠ 0xFFFF := by decide

theorem witness_MovFrame :
    answers (.movRmReg .toReg .byte (.low .a) (.mem (.noDisp .bxsi))) sample = true ∧
    answers (.movRmReg .toReg .word (.word .a) (.mem (.noDisp .bxsi))) sample = true ∧
    answers (.movImmRm (.noDisp .bx) (.word 1)) sample = true ∧
    answers (.movImmReg (.high .a) (.byte 1)) sample = true ∧
    answers (.movMemToAcc .word 0xFFFE) sample = true ∧
    answers (.movAccToMem .byte 0xFFFF) sample = true := by decide

theorem witness_AddFrame :
    answers (.addRmReg .toReg .byte (.high .a) (.reg (.low .a))) sample = true ∧
    answers (.addGrpImm (.mem (.direct 0xFFFE)) (.sext 0xFF)) sample = true ∧
    answers (.addAccImm (.byte 0xFF)) sample = true := by decide

theorem witness_SubFrame :
    answers (.subRmReg .toRm .word (.word .sp) (.mem (.noDisp .bx))) sample = true ∧
    answers (.subGrpImm (.reg (.low .b)) (.byte 0xFF)) sample = true ∧
    answers (.subAccImm (.word 0xFFFF)) sample = true := by decide

theorem witness_CmpFrame :
    answers (.cmpRmReg .toRm .word (.word .sp) (.mem (.noDisp .bx))) sample = true ∧
    answers (.cmpGrpImm (.reg (.low .b)) (.byte 0xFF)) sample = true ∧
    answers (.cmpAccImm (.word 0xFFFF)) sample = true := by decide

theorem witness_JumpFrame :
    answers (jumpInstr .jnz 0x80) sample = true ∧ answers (jumpInstr .loopz 0x7F) sample = true := by
  decide

/-- One state whose instruction completes and one whose instruction faults. -/
theorem witness_StepRunsTheDecodedInstruction :
    (sample.runState = .running ∧ sample.codeLen ≤ 65535 ∧ sample.params.mode = .execute ∧
      decode (fetchWindow sample) = .ok (.movAccToMem .word 0x2000) ∧
      execAfter (.movAccToMem .word 0x2000) sample
        (fun t => decide (t.runState = .running)) = true) ∧
    decode (fetchWindow (boot [0xA3, 0xFF, 0xFF])) = .ok (.movAccToMem .word 0xFFFF) ∧
    execAfter (.movAccToMem .word 0xFFFF) (boot [0xA3, 0xFF, 0xFF]) (fun t =>
      decide (t.runState = .faulted ⟨.wordAtFFFF 0xFFFF, 0, [0xA3, 0xFF, 0xFF]⟩)) = true := by decide

theorem witness_DisassembleStepOnlyAdvances :
    (boot [0xE2, 0xFE, 0x90] Regs.reset [] 0 disParams).runState = .running ∧
    (boot [0xE2, 0xFE, 0x90] Regs.reset [] 0 disParams).codeLen ≤ 65535 ∧
    (boot [0xE2, 0xFE, 0x90] Regs.reset [] 0 disParams).params.mode = .disassemble ∧
    decode (fetchWindow (boot [0xE2, 0xFE, 0x90] Regs.reset [] 0 disParams)) = .ok (.loop 0xFE) := by
  decide

theorem witness_DecodeFaultStopsTheRun :
    ((boot [0x0F]).runState = .running ∧ (boot [0x0F]).codeLen ≤ 65535 ∧
      decode (fetchWindow (boot [0x0F])) = .fault (.unknownOpcode [0x0F])) ∧
    decode (fetchWindow (boot [0xC7, 0xC0])) = .fault (.malformed .registerDirect [0xC7, 0xC0]) ∧
    decode (fetchWindow (boot [0xB8, 0x05])) = .fault (.truncated [0xB8, 0x05]) := by decide

theorem witness_FetchWindowBytes :
    5 < 6 ∧ (boot [1, 2, 3, 4, 5, 6]).ip.toNat + 5 < (boot [1, 2, 3, 4, 5, 6]).codeLen ∧
    (boot [1, 2, 3, 4, 5, 6]).params.codeInDataMemory = false ∧
    fetchWindow (boot [1, 2, 3, 4, 5, 6]) = [1, 2, 3, 4, 5, 6] ∧
    (boot [1, 2, 3, 4, 5, 6] Regs.reset [] 0 inMemParams).params.codeInDataMemory = true ∧
    fetchWindow (boot [1, 2, 3, 4, 5, 6] Regs.reset [] 0 inMemParams) = [1, 2, 3, 4, 5, 6] := by decide

theorem witness_StepTakenExactlyInRunning :
    sample.runState = .running ∧ sample.codeLen ≤ 65535 ∧ after sample (fun _ => true) = true ∧
    State.reset.runState = .ended ∧
    { sample with runState := .faulted ⟨.unknownOpcode, 0, [0x0F]⟩ }.runState =
      .faulted ⟨.unknownOpcode, 0, [0x0F]⟩ := by decide

/-- Each of the four causes is raised by some step. -/
theorem witness_FaultsArePrecise :
    faultsWith (boot [0x0F]) ⟨.unknownOpcode, 0, [0x0F]⟩ = true ∧
    faultsWith (boot [0xC7, 0xC0]) ⟨.malformedEncoding .registerDirect, 0, [0xC7, 0xC0]⟩ = true ∧
    faultsWith (boot [0xB8]) ⟨.truncated 1, 0, [0xB8]⟩ = true ∧
    faultsWith (boot [0xA1, 0xFF, 0xFF]) ⟨.wordAtFFFF 0xFFFF, 0, [0xA1, 0xFF, 0xFF]⟩ = true := by decide

/-- The same four steps, and the longest `Truncated`. -/
theorem witness_FaultRecordContents :
    faultsWith (boot [0x81, 0x06, 0x00, 0x00, 0x01])
      ⟨.truncated 5, 0, [0x81, 0x06, 0x00, 0x00, 0x01]⟩ = true := by decide

theorem witness_RunStatusRule :
    after (boot [0x75, 0xFE]) (fun t => decide (t.runState = .running)) = true ∧
    after sample (fun t => decide (t.runState = .ended)) = true ∧
    after (boot [0x0F]) (fun t => decide (t.runState = .faulted ⟨.unknownOpcode, 0, [0x0F]⟩)) = true := by
  decide

/-- A jnz taken backwards past 0, one not taken, one in Disassemble mode, and another instruction. -/
theorem witness_OnlyTakenJnzLeavesTheSequence :
    after (boot [0x75, 0x80]) (fun t => t.ip == 0xFF82 && t.runState == .ended) = true ∧
    after (boot [0x75, 0x80] Regs.reset [] 0x0040) (fun t => t.ip == 2) = true ∧
    after (boot [0x75, 0x80] Regs.reset [] 0 disParams) (fun t => t.ip == 2) = true ∧
    after sample (fun t => t.ip == 3 && t.runState == .ended) = true ∧
    after (boot [0x0F]) (fun t => t.runState == .faulted ⟨.unknownOpcode, 0, [0x0F]⟩) = true := by decide

theorem witness_RegisterWriters :
    after (boot [0xB4, 0x01]) (fun t => t.reg .a != (boot [0xB4, 0x01]).reg .a) = true := by decide

/-- An arithmetic step in Execute mode, a mov, and an arithmetic step in Disassemble mode. -/
theorem witness_FlagWriters :
    decode (fetchWindow (boot [0x29, 0xC0])) =
      .ok (.subRmReg .toRm .word (.word .a) (.reg (.word .a))) ∧
    (Instr.subRmReg .toRm .word (.word .a) (.reg (.word .a))).record.kind = .data (.arith .sub) ∧
    after (boot [0x29, 0xC0]) (fun t => t.runState == .ended && t.zf) = true ∧
    after (boot [0xB0, 0x00] Regs.reset [] 0x00C0) (fun t => t.runState == .ended && t.sf) = true ∧
    after (boot [0x29, 0xC0] Regs.reset [] 0x0080 disParams)
      (fun t => t.runState == .ended && t.flags == 0x0080) = true := by decide

theorem witness_SignFlagIsNeverRead :
    answers (.jnz 0x10) sample = true ∧ answers (.js 0x10) (withSf true sample) = true := by decide

/-- A store that does reach 0x10000 under Linear, with the address above it; and one under Wrap16. -/
theorem witness_HighMemoryIsNeverWritten :
    after (boot [0xA3, 0xFF, 0xFF] { Regs.reset with a := 0xCAFE } [] 0 (hiParams .linear))
      (fun t => t.mem == [(0xFFFF, 0xFE), (0x10000, 0xCA)]) = true ∧ 0x10000 < 0x10001 ∧
    after (boot [0xA3, 0xFF, 0xFF] { Regs.reset with a := 0xCAFE } [] 0 (hiParams .wrap16))
      (fun _ => true) = true ∧ (hiParams .wrap16).hiByteAtFFFF ≠ .linear := by decide

theorem witness_StoresAndFetch :
    after sample (fun t => t.mem != sample.mem) = true ∧ sample.params.codeInDataMemory = false ∧
    after (State.start [0xA3, 0x00, 0x00] inMemParams [])
      (fun t => codeByte t 0 == some 0x00 && codeByte t 3 == none) = true := by decide

theorem boot_running {code : List Byte} (h : code.length > 0) : (boot code).runState = .running :=
  if_pos h

theorem boot_codeLen (code : List Byte) : (boot code).codeLen = code.length := rfl

theorem witness_LongImageIsRefused :
    (boot (List.replicate 65536 0)).runState = .running ∧
    65535 < (boot (List.replicate 65536 0)).codeLen := by
  rw [boot_codeLen, List.length_replicate]
  exact ⟨boot_running (by rw [List.length_replicate]; decide), by decide⟩

theorem witness_StartMeetsTheInvariant :
    [0x75, (0xFE : Byte)].length ≤ 65535 ∧ Memory.wf [(0, 0x11), (0xFFFFF, 0x33)] = true := by decide

theorem witness_StepKeepsTheInvariant : sample.Inv ∧ after sample (fun _ => true) = true := by
  refine ⟨⟨by decide, by decide, by decide, ?_⟩, by decide⟩
  show sample.ip.toNat < sample.codeLen
  decide

/-- A disassembly before its first step. -/
def listingStart : State := boot [0x75, 0xFE, 0xB0, 0x07] Regs.reset [] 0 disParams

/-- The same disassembly before its last step. -/
def listingEnd : State := { listingStart with ip := 2, listing := [(Instr.jnz 0xFE).record] }

/-- The first step of a listing, and its last. -/
theorem witness_DisassemblyCoversTheImage :
    (listingStart.params.mode = .disassemble ∧ listingStart.listedBytes = listingStart.ip.toNat ∧
      after listingStart (fun t => t.runState == .running && t.listedBytes == 2) = true) ∧
    (listingEnd.params.mode = .disassemble ∧ listingEnd.listedBytes = listingEnd.ip.toNat ∧
      after listingEnd (fun t => t.runState == .ended && t.listedBytes == 4) = true) := by decide

/-- Two instructions with one text (30_encoding.md R97). -/
theorem witness_PrintedTextDeterminesTheRecord :
    Instr.wf (.movRmReg .toRm .word (.word .a) (.reg (.word .b))) = true ∧
    Instr.wf (.movRmReg .toReg .word (.word .b) (.reg (.word .a))) = true ∧
    lineText (Instr.movRmReg .toRm .word (.word .a) (.reg (.word .b))).record =
      lineText (Instr.movRmReg .toReg .word (.word .b) (.reg (.word .a))).record := by decide

/-- Two instructions with one record, a jump operand at the end of its range, and steps that complete,
raise a decode fault and raise WordAtFFFF. -/
theorem witness_RecordSignalValues :
    recordSignals (Instr.movRmReg .toRm .word (.word .a) (.reg (.word .b))).record =
      recordSignals (Instr.movRmReg .toReg .word (.word .b) (.reg (.word .a))).record ∧
    (Instr.jnz 0x80).record.op0 = .rel (BitVec.ofInt 32 (-126)) ∧
    after sample (fun t => t.runState == .ended) = true ∧
    decode (fetchWindow sample) = .ok (.movAccToMem .word 0x2000) ∧
    faultsWith (boot [0x0F]) ⟨.unknownOpcode, 0, [0x0F]⟩ = true ∧
    decode (fetchWindow (boot [0x0F])) = .fault (.unknownOpcode [0x0F]) ∧
    faultsWith (boot [0xA3, 0xFF, 0xFF]) ⟨.wordAtFFFF 0xFFFF, 0, [0xA3, 0xFF, 0xFF]⟩ = true := by
  decide

end Sys2Proof.Tests
end

/-! # Proofs of the family 10_state.md -/

section
/-! SUPPORT. Words and their bytes as numbers, the flags word after an update, the reset registers. -/

namespace Sys2Proof

@[simp] theorem zext16_toNat (b : Byte) : (zext16 b).toNat = b.toNat :=
  BitVec.toNat_setWidth_of_le (by decide)

@[simp] theorem loByte_toNat (v : Word) : (loByte v).toNat = v.toNat % 256 := by
  simp [loByte]

@[simp] theorem hiByte_toNat (v : Word) : (hiByte v).toNat = v.toNat / 256 := by
  have hv : v.toNat < 2 ^ 16 := v.isLt
  simp only [hiByte, BitVec.extractLsb'_toNat, Nat.shiftRight_eq_div_pow]
  omega

/-- The stored value of a jump operand is the signed displacement plus 2 (30_encoding.md R79). -/
theorem relValue_eq (d : Byte) : relValue d = BitVec.ofInt 32 (d.toInt + 2) :=
  (BitVec.ofInt_add d.toInt 2).symm

namespace Machine

/-- The target of a taken jump as a number (43_jumps.md R200). -/
theorem jumpTarget_toNat (d : Byte) (s : State) :
    ((jumpTarget d s).toNat : Int) = (s.ip.toNat + (d.toInt + 2)) % 65536 := by
  rw [jumpTarget, relValue_eq, BitVec.toNat_add, BitVec.toNat_setWidth, BitVec.toNat_ofInt]
  omega

@[simp] theorem Regs.get_reset (n : RegName) : Regs.reset.get n = 0 := by cases n <;> rfl

theorem withZfSf_zf (f : Word) (z n : Bool) : (withZfSf f z n).getLsbD 6 = z := by
  cases z <;> cases n <;> simp [withZfSf, flagMask]

theorem withZfSf_sf (f : Word) (z n : Bool) : (withZfSf f z n).getLsbD 7 = n := by
  cases z <;> cases n <;> simp [withZfSf, flagMask]

/-- A flag update keeps every bit but ZF and SF (40_decoder.md R135). -/
theorem withZfSf_other (f : Word) (z n : Bool) {k : Nat} (h6 : k ≠ 6) (h7 : k ≠ 7) :
    (withZfSf f z n).getLsbD k = f.getLsbD k := by
  have hz : (0x0040 : Word) = BitVec.twoPow 16 6 := rfl
  have hn : (0x0080 : Word) = BitVec.twoPow 16 7 := rfl
  have hm : flagMask = BitVec.twoPow 16 6 ||| BitVec.twoPow 16 7 := rfl
  cases z <;> cases n <;>
    simpa [withZfSf, hz, hn, hm, BitVec.getLsbD_twoPow, h6.symm, h7.symm] using
      BitVec.lt_of_getLsbD

/-- SF is the highest bit of a result at its width. -/
theorem resultSign_eq (w : Width) (r : Word) :
    resultSign w r = r.getLsbD (Statements.bits w - 1) := by
  cases w <;> rfl

theorem resultZero_iff (r : Word) : resultZero r = true ↔ r = 0 := beq_iff_eq

end Machine
end Sys2Proof
end

section
/-! SUPPORT. When an access raises `WordAtFFFF`: for a memory access, for an operand, and for an
instruction read off its record (60_exceptions.md R245). -/

open Sys2Proof.Statements

namespace Sys2Proof.Machine

/-- A word access at effective address 0xFFFF under `Fault` (20_memory.md R57). -/
def atFFFF (w : Width) (ea : Word) (s : State) : Prop :=
  s.params.hiByteAtFFFF = .fault ∧ w = .word ∧ ea = 0xFFFF

theorem hiIndex_eq_none_iff (p : HiByteAtFFFF) (ea : Word) :
    hiIndex p ea = none ↔ p = .fault ∧ ea = 0xFFFF := by
  unfold hiIndex
  by_cases h : ea = 0xFFFF
  · cases p <;> simp [h]
  · simp only [h, if_false, reduceCtorEq, and_false]

theorem memRead_eq_none_iff (w : Width) (ea : Word) (s : State) :
    memRead w ea s = none ↔ atFFFF w ea s := by
  cases w with
  | byte => simp [memRead, atFFFF]
  | word =>
    have h := hiIndex_eq_none_iff s.params.hiByteAtFFFF ea
    cases hk : hiIndex s.params.hiByteAtFFFF ea <;> simp_all [memRead, atFFFF]

theorem memWrite_eq_none_iff (w : Width) (ea v : Word) (s : State) :
    memWrite w ea v s = none ↔ atFFFF w ea s := by
  cases w with
  | byte => simp [memWrite, atFFFF]
  | word =>
    have h := hiIndex_eq_none_iff s.params.hiByteAtFFFF ea
    cases hk : hiIndex s.params.hiByteAtFFFF ea <;> simp_all [memWrite, atFFFF]

/-- An operand that cannot be read is a memory operand at 0xFFFF. -/
theorem readOp_eq_none_iff (w : Width) (op : Operand) (s : State) :
    readOp w op s = none ↔ ∃ m, op = .mem m ∧ atFFFF w (effectiveAddress m s) s := by
  cases op <;> simp [readOp, memRead_eq_none_iff]

/-- A destination cannot be written exactly when it cannot be read. -/
theorem writeLoc_eq_none_iff (w : Width) (dst : Loc) (v : Word) (s : State) :
    writeLoc w dst v s = none ↔ readOp w dst.operand s = none := by
  cases dst with
  | reg r => simp [writeLoc, Loc.operand, readOp]
  | mem m => simp only [writeLoc, Loc.operand, readOp, memWrite_eq_none_iff, memRead_eq_none_iff]

/-- At most one of two operands is in memory (40_decoder.md R131). -/
inductive OneInMemory : Loc → Operand → Prop where
  | dstReg (r : Slice) (src : Operand) : OneInMemory (.reg r) src
  | srcReg (dst : Loc) (r : Slice) : OneInMemory dst (.reg r)
  | srcImm (dst : Loc) (v : BitVec 32) : OneInMemory dst (.imm v)

theorem OneInMemory.rmReg (dir : Dir) (reg : Slice) (rm : Rm) :
    OneInMemory (rmRegDst dir reg rm) (rmRegSrc dir reg rm) := by
  cases dir with
  | toRm => exact .srcReg ..
  | toReg => exact .dstReg ..

/-- The memory operand of a two-operand record is whichever of its operands is in memory. -/
theorem memOperand_dataRecord {k : DataKind} {w : Width} {n : Nat} {dst : Loc} {src : Operand}
    (hone : OneInMemory dst src) (m : MemOperand) :
    memOperand (dataRecord k w n dst src) = some m ↔ dst.operand = .mem m ∨ src = .mem m := by
  cases hone with
  | dstReg r src => cases src <;> simp [memOperand, dataRecord, Loc.operand]
  | srcReg dst r => cases dst <;> simp [memOperand, dataRecord, Loc.operand]
  | srcImm dst v => cases dst <;> simp [memOperand, dataRecord, Loc.operand]

theorem memOperand_jumpRecord (j : JumpKind) (d : Byte) :
    memOperand (jumpRecord j d) = none := rfl

theorem wordAtFFFF_iff (i : Instr) (s : State) :
    wordAtFFFF i s = true ↔ ∃ m, memOperand i.record = some m ∧
      atFFFF i.record.wide (effectiveAddress m s) s := by
  cases h : memOperand i.record <;> simp [wordAtFFFF, h, atFFFF, and_assoc]

/-- A two-operand instruction raises `WordAtFFFF` exactly when one of its operands cannot be read. -/
theorem wordAtFFFF_iff_unreadable {i : Instr} {k : DataKind} {w : Width} {n : Nat} {dst : Loc}
    {src : Operand} (hrec : i.record = dataRecord k w n dst src) (hone : OneInMemory dst src)
    (s : State) :
    wordAtFFFF i s = true ↔ readOp w dst.operand s = none ∨ readOp w src s = none := by
  simp only [wordAtFFFF_iff, hrec, memOperand_dataRecord hone, readOp_eq_none_iff, or_and_right,
    exists_or]
  rfl

/-- A one-operand instruction raises no `WordAtFFFF`. -/
theorem wordAtFFFF_jump {i : Instr} {j : JumpKind} {d : Byte} (hrec : i.record = jumpRecord j d)
    (s : State) : wordAtFFFF i s = false := by
  simp only [wordAtFFFF, hrec, memOperand_jumpRecord]

end Sys2Proof.Machine
end

section
/-! SUPPORT. What an instruction's meaning does, said of its record: the five shapes of the
thirty-four meanings, and the answer of each with the exact condition of its fault. -/

open Sys2Proof.Statements

namespace Sys2Proof.Machine

/-- The meaning of an instruction is one of the shared operations, on the operands of its record. -/
inductive Meaning (i : Instr) : Prop where
  | mov (w : Width) (dst : Loc) (src : Operand)
      (hrec : i.record = dataRecord .mov w i.size dst src) (hone : OneInMemory dst src)
      (hexec : ∀ s, exec i s = moveOp i w dst src s)
  | update (a : Arith) (w : Width) (dst : Loc) (src : Operand) (ha : a ≠ .cmp)
      (hrec : i.record = dataRecord (.arith a) w i.size dst src) (hone : OneInMemory dst src)
      (hexec : ∀ s, exec i s = updateOp a i w dst src s)
  | compare (w : Width) (dst : Loc) (src : Operand)
      (hrec : i.record = dataRecord (.arith .cmp) w i.size dst src) (hone : OneInMemory dst src)
      (hexec : ∀ s, exec i s = compareOp i w dst src s)
  | jnz (d : Byte) (hi : i = .jnz d)
  | fallThrough (j : JumpKind) (d : Byte) (hrec : i.record = jumpRecord j d)
      (hjnz : ∀ d, i ≠ .jnz d) (hexec : ∀ s, exec i s = .next (advance i s))

theorem meaning (i : Instr) : Meaning i := by
  cases i with
  | movRmReg dir w reg rm => exact .mov w _ _ rfl (.rmReg ..) fun _ => rfl
  | movImmRm m imm => exact .mov imm.width _ _ rfl (.srcImm ..) fun _ => rfl
  | movImmReg reg imm => exact .mov imm.width _ _ rfl (.dstReg ..) fun _ => rfl
  | movMemToAcc w addr => exact .mov w _ _ rfl (.dstReg ..) fun _ => rfl
  | movAccToMem w addr => exact .mov w _ _ rfl (.srcReg ..) fun _ => rfl
  | addRmReg dir w reg rm | subRmReg dir w reg rm =>
    exact .update _ w _ _ (by decide) rfl (.rmReg ..) fun _ => rfl
  | addGrpImm rm imm | subGrpImm rm imm =>
    exact .update _ imm.width _ _ (by decide) rfl (.srcImm ..) fun _ => rfl
  | addAccImm imm | subAccImm imm =>
    exact .update _ imm.width _ _ (by decide) rfl (.dstReg ..) fun _ => rfl
  | cmpRmReg dir w reg rm => exact .compare w _ _ rfl (.rmReg ..) fun _ => rfl
  | cmpGrpImm rm imm => exact .compare imm.width _ _ rfl (.srcImm ..) fun _ => rfl
  | cmpAccImm imm => exact .compare imm.width _ _ rfl (.dstReg ..) fun _ => rfl
  | jnz d => exact .jnz d rfl
  | je d | jl d | jle d | jb d | jbe d | jp d | jo d | js d | jnl d | jg d | jnb d | ja d | jnp d
    | jno d | jns d | loop d | loopz d | loopnz d | jcxz d =>
    exact .fallThrough _ d rfl nofun fun _ => rfl

/-- What an instruction that raises no fault does: the cases of `Effect` with the record's kind and
operands, and the values they read. -/
inductive Completed (i : Instr) (s t : State) : Prop where
  | moved (w : Width) (dst : Loc) (src : Operand) (v : Word) (u : State)
      (hrec : i.record = dataRecord .mov w i.size dst src)
      (hv : readOp w src s = some v) (hu : writeLoc w dst v s = some u) (ht : t = advance i u)
  | updated (a : Arith) (w : Width) (dst : Loc) (src : Operand) (d v : Word) (u : State)
      (ha : a ≠ .cmp) (hrec : i.record = dataRecord (.arith a) w i.size dst src)
      (hd : readOp w dst.operand s = some d) (hv : readOp w src s = some v)
      (hu : writeLoc w dst (arithResult a w d v) s = some u)
      (ht : t = advance i (flagUpdate w (arithResult a w d v) u))
  | compared (w : Width) (dst : Loc) (src : Operand) (d v : Word)
      (hrec : i.record = dataRecord (.arith .cmp) w i.size dst src)
      (hd : readOp w dst.operand s = some d) (hv : readOp w src s = some v)
      (ht : t = advance i (flagUpdate w (arithResult .cmp w d v) s))
  | jumped (d : Byte) (hi : i = .jnz d) (hz : s.zf = false) (ht : t = s.setIp (jumpTarget d s))
  | fellThrough (j : JumpKind) (d : Byte) (hrec : i.record = jumpRecord j d)
      (hseq : ∀ d, i = .jnz d → s.zf = true) (ht : t = advance i s)

/-- What any instruction's meaning answers: it faults, on `WordAtFFFF` alone, or completes. -/
inductive Answer (i : Instr) (s t : State) : Prop where
  | faulted (hw : wordAtFFFF i s = true) (ht : t = raise (wordAtFFFFRecord i s.ip) s)
  | completed (hw : wordAtFFFF i s = false) (h : Completed i s t)

variable {i : Instr} {w : Width} {dst : Loc} {src : Operand} {s t : State}

/-- A meaning that raises `WordAtFFFF` for an operand it cannot read. -/
theorem Answer.of_unreadable {k : DataKind} (hrec : i.record = dataRecord k w i.size dst src)
    (hone : OneInMemory dst src) (hnone : readOp w dst.operand s = none ∨ readOp w src s = none)
    (h : raiseWordAtFFFF i s = .next t) : Answer i s t :=
  .faulted ((wordAtFFFF_iff_unreadable hrec hone s).2 hnone) (Host.Outcome.next.inj h).symm

/-- A meaning that completes once it has read both operands. -/
theorem Answer.of_readable {k : DataKind} {d v : Word}
    (hrec : i.record = dataRecord k w i.size dst src) (hone : OneInMemory dst src)
    (hd : readOp w dst.operand s = some d) (hv : readOp w src s = some v) (h : Completed i s t) :
    Answer i s t := by
  refine .completed (Bool.eq_false_iff.2 fun hw => ?_) h
  simp [wordAtFFFF_iff_unreadable hrec hone, hd, hv] at hw

theorem moveOp_answer (hrec : i.record = dataRecord .mov w i.size dst src)
    (hone : OneInMemory dst src) (h : moveOp i w dst src s = .next t) : Answer i s t := by
  cases hv : readOp w src s with
  | none => exact .of_unreadable hrec hone (.inr hv) (by simpa only [moveOp, hv] using h)
  | some v =>
    cases hu : writeLoc w dst v s with
    | none =>
      have hd := (writeLoc_eq_none_iff ..).1 hu
      exact .of_unreadable hrec hone (.inl hd) (by simpa only [moveOp, hv, hu] using h)
    | some u =>
      simp only [moveOp, hv, hu, Host.Outcome.next.injEq] at h
      cases hd : readOp w dst.operand s with
      | none => simp [(writeLoc_eq_none_iff w dst v s).2 hd] at hu
      | some d => exact .of_readable hrec hone hd hv (.moved w dst src v u hrec hv hu h.symm)

theorem updateOp_answer {a : Arith} (ha : a ≠ .cmp)
    (hrec : i.record = dataRecord (.arith a) w i.size dst src) (hone : OneInMemory dst src)
    (h : updateOp a i w dst src s = .next t) : Answer i s t := by
  cases hd : readOp w dst.operand s with
  | none => exact .of_unreadable hrec hone (.inl hd) (by simpa only [updateOp, hd] using h)
  | some d =>
    cases hv : readOp w src s with
    | none => exact .of_unreadable hrec hone (.inr hv) (by simpa only [updateOp, hd, hv] using h)
    | some v =>
      cases hu : writeLoc w dst (arithResult a w d v) s with
      | none => simp [(writeLoc_eq_none_iff ..).1 hu] at hd
      | some u =>
        simp only [updateOp, hd, hv, hu, Host.Outcome.next.injEq] at h
        exact .of_readable hrec hone hd hv
          (.updated a w dst src d v u ha hrec hd hv hu h.symm)

theorem compareOp_answer (hrec : i.record = dataRecord (.arith .cmp) w i.size dst src)
    (hone : OneInMemory dst src) (h : compareOp i w dst src s = .next t) : Answer i s t := by
  cases hd : readOp w dst.operand s with
  | none => exact .of_unreadable hrec hone (.inl hd) (by simpa only [compareOp, hd] using h)
  | some d =>
    cases hv : readOp w src s with
    | none => exact .of_unreadable hrec hone (.inr hv) (by simpa only [compareOp, hd, hv] using h)
    | some v =>
      simp only [compareOp, hd, hv, Host.Outcome.next.injEq] at h
      exact .of_readable hrec hone hd hv (.compared w dst src d v hrec hd hv h.symm)

/-- jnz jumps when ZF is clear and falls through when it is set (43_jumps.md R209). -/
theorem jnz_answer {d : Byte} (h : exec (.jnz d) s = .next t) : Answer (.jnz d) s t := by
  refine .completed (wordAtFFFF_jump (j := .jnz) rfl s) ?_
  cases hz : s.zf with
  | false =>
    simp only [exec, execJnz, hz, if_true, Host.Outcome.next.injEq] at h
    exact .jumped d rfl hz h.symm
  | true =>
    simp only [exec, execJnz, hz, Bool.true_eq_false, if_false, Host.Outcome.next.injEq] at h
    exact .fellThrough .jnz d rfl (fun _ _ => hz) h.symm

/-- What any instruction's meaning answers. -/
theorem exec_answer (h : exec i s = .next t) : Answer i s t := by
  cases meaning i with
  | mov w dst src hrec hone hexec => exact moveOp_answer hrec hone (hexec s ▸ h)
  | update a w dst src ha hrec hone hexec => exact updateOp_answer ha hrec hone (hexec s ▸ h)
  | compare w dst src hrec hone hexec => exact compareOp_answer hrec hone (hexec s ▸ h)
  | jnz d hi => subst hi; exact jnz_answer h
  | fallThrough j d hrec hjnz hexec =>
    rw [hexec s, Host.Outcome.next.injEq] at h
    exact .completed (wordAtFFFF_jump hrec s)
      (.fellThrough j d hrec (fun d hi => absurd hi (hjnz d)) h.symm)

/-! ## What a completed instruction leaves and writes -/

/-- A destination write leaves the flags word, `ip` and the run status. -/
theorem writeLoc_frame {v : Word} {u : State} (h : writeLoc w dst v s = some u) :
    u.flags = s.flags ∧ u.ip = s.ip ∧ u.runState = s.runState := by
  rw [(writeLoc_spec h).1]
  exact ⟨rfl, rfl, rfl⟩

/-- A write that changes a register has a slice of that register as its destination. -/
theorem writeLoc_changed_reg {v : Word} {u : State} {n : RegName}
    (h : writeLoc w dst v s = some u) (hne : u.reg n ≠ s.reg n) :
    ∃ r, dst = .reg r ∧ r.name = n := by
  cases dst with
  | reg r =>
    simp only [writeLoc, Option.some.injEq] at h
    subst h
    exact ⟨r, rfl, by_contra fun hr => hne (writeSlice_reg_other r v s (Ne.symm hr))⟩
  | mem m =>
    rw [(memWrite_spec (h : memWrite w _ v s = some u)).1] at hne
    exact absurd rfl hne

/-- A completed instruction leaves the run status. -/
theorem Completed.runState (h : Completed i s t) : t.runState = s.runState := by
  cases h with
  | moved w dst src v u hrec hv hu ht => rw [ht]; exact (writeLoc_frame hu).2.2
  | updated a w dst src d v u ha hrec hd hv hu ht => rw [ht]; exact (writeLoc_frame hu).2.2
  | compared w dst src d v hrec hd hv ht => rw [ht]; rfl
  | jumped d hi hz ht => rw [ht]; rfl
  | fellThrough j d hrec hseq ht => rw [ht]; rfl

/-- Every completed instruction but a taken jnz advances `ip` by its size. -/
theorem Completed.ip_of_not_taken (h : Completed i s t)
    (hseq : ¬ (s.zf = false ∧ ∃ d, i = .jnz d)) : t.ip = s.ip + BitVec.ofNat 16 i.size := by
  cases h with
  | moved w dst src v u hrec hv hu ht => rw [ht, advance_ip, (writeLoc_frame hu).2.1]
  | updated a w dst src d v u ha hrec hd hv hu ht =>
    rw [ht, advance_ip, flagUpdate_ip, (writeLoc_frame hu).2.1]
  | compared w dst src d v hrec hd hv ht => rw [ht]; rfl
  | jumped d hi hz ht => exact absurd ⟨hz, d, hi⟩ hseq
  | fellThrough j d hrec hseq ht => rw [ht]; rfl

/-- A completed jnz with ZF clear is taken. -/
theorem Completed.ip_of_taken {d : Byte} (h : Completed (.jnz d) s t) (hz : s.zf = false) :
    t.ip = jumpTarget d s := by
  cases h with
  | moved w dst src v u hrec | updated a w dst src d v u ha hrec | compared w dst src d v hrec =>
    cases hrec
  | jumped d' hi hz' ht => cases hi; rw [ht]; rfl
  | fellThrough j d' hrec hseq ht => simp [hseq d rfl] at hz

/-- Only a mov, add or sub changes a register, and only the one its destination names. -/
theorem Completed.changed_reg {n : RegName} (h : Completed i s t) (hne : t.reg n ≠ s.reg n) :
    ∃ r, (i.record.kind = .data .mov ∨ i.record.kind = .data (.arith .add) ∨
      i.record.kind = .data (.arith .sub)) ∧ i.record.op0 = .reg r ∧ r.name = n := by
  cases h with
  | moved w dst src v u hrec hv hu ht =>
    subst ht
    obtain ⟨r, rfl, hr⟩ := writeLoc_changed_reg hu hne
    exact ⟨r, .inl (hrec ▸ rfl), hrec ▸ rfl, hr⟩
  | updated a w dst src d v u ha hrec hd hv hu ht =>
    subst ht
    obtain ⟨r, rfl, hr⟩ := writeLoc_changed_reg hu hne
    have hk : i.record.kind = .data (.arith a) := hrec ▸ rfl
    refine ⟨r, .inr ?_, hrec ▸ rfl, hr⟩
    cases a with
    | add => exact .inl hk
    | sub => exact .inr hk
    | cmp => exact absurd rfl ha
  | compared w dst src d v hrec hd hv ht => subst ht; exact absurd rfl hne
  | jumped d hi hz ht => subst ht; exact absurd rfl hne
  | fellThrough j d hrec hseq ht => subst ht; exact absurd rfl hne

/-- The kind of a completed instruction decides its flags: an arithmetic kind writes them from the
result of its own operands, and no other kind writes them. -/
theorem Completed.flags (h : Completed i s t) :
    (∃ a src d v, i.record.kind = .data (.arith a) ∧ i.record.op1 = some src ∧
      readOp i.record.wide i.record.op0 s = some d ∧ readOp i.record.wide src s = some v ∧
      t.flags = withZfSf s.flags (resultZero (arithResult a i.record.wide d v))
        (resultSign i.record.wide (arithResult a i.record.wide d v))) ∨
    ((∀ a, i.record.kind ≠ .data (.arith a)) ∧ t.flags = s.flags) := by
  cases h with
  | moved w dst src v u hrec hv hu ht =>
    rw [hrec, ht]
    exact .inr ⟨nofun, (writeLoc_frame hu).1⟩
  | updated a w dst src d v u ha hrec hd hv hu ht =>
    rw [hrec, ht, advance_flags, flagUpdate_flags, (writeLoc_frame hu).1]
    exact .inl ⟨a, src, d, v, rfl, rfl, hd, hv, rfl⟩
  | compared w dst src d v hrec hd hv ht =>
    rw [hrec, ht]
    exact .inl ⟨.cmp, src, d, v, rfl, rfl, hd, hv, rfl⟩
  | jumped d hi hz ht => rw [hi, ht]; exact .inr ⟨nofun, rfl⟩
  | fellThrough j d hrec hseq ht => rw [hrec, ht]; exact .inr ⟨nofun, rfl⟩

end Sys2Proof.Machine
end

section
/-! SUPPORT. What a step does, with the condition of each of its outcomes (10_state.md R44). -/

open Sys2Proof.Statements

namespace Sys2Proof.Machine

@[simp] theorem settle_regs (s : State) : (settle s).regs = s.regs := by
  unfold settle; split <;> rfl
@[simp] theorem settle_flags (s : State) : (settle s).flags = s.flags := by
  unfold settle; split <;> rfl
@[simp] theorem settle_ip (s : State) : (settle s).ip = s.ip := by
  unfold settle; split <;> rfl
@[simp] theorem settle_codeLen (s : State) : (settle s).codeLen = s.codeLen := by
  unfold settle; split <;> rfl

/-- A running state settles to `Ended` outside the image and goes on inside it. -/
theorem settle_runState {s : State} (h : s.runState = .running) :
    (settle s).runState = if s.codeLen ≤ s.ip.toNat then .ended else .running := by
  unfold settle
  split
  · rfl
  · exact h

theorem complete_of_running (i : Instr) {t : State} (h : t.runState = .running) :
    complete i t = settle (emit i.record t) := by
  simp only [complete, h]

/-- The end of a faulted step changes nothing more. -/
theorem complete_raise (i : Instr) (r : FaultRecord) (s : State) :
    complete i (raise r s) = raise r s := rfl

/-- What the instruction part of a completed step does: it advances `ip` in Disassemble mode, and runs
the instruction without a fault in Execute mode. -/
inductive Body (i : Instr) (s u : State) : Prop where
  | disassembled (hm : s.params.mode = .disassemble) (hu : u = advance i s)
  | executed (hm : s.params.mode = .execute) (hw : wordAtFFFF i s = false)
      (h : Completed i s u)

/-- The outcomes of a step. -/
inductive StepOutcome (s t : State) : Prop where
  | decodeFault (f : DecodeFault) (hf : decode (fetchWindow s) = .fault f)
      (ht : t = raise (decodeFaultRecord s.ip f) s)
  | wordFault (i : Instr) (hi : decode (fetchWindow s) = .ok i) (hm : s.params.mode = .execute)
      (hw : wordAtFFFF i s = true) (ht : t = raise (wordAtFFFFRecord i s.ip) s)
  | completed (i : Instr) (u : State) (hi : decode (fetchWindow s) = .ok i) (hb : Body i s u)
      (hu : u.runState = .running) (ht : t = settle (emit i.record u))

theorem step_outcome {s t : State} (h : step s = .next t) : StepOutcome s t := by
  obtain ⟨hrun, -, ⟨f, hf, ht⟩ | ⟨i, hi, ⟨hm, ht⟩ | ⟨hm, u, hu, ht⟩⟩⟩ := step_cases h
  · exact .decodeFault f hf ht
  · exact .completed i (advance i s) hi (.disassembled hm rfl) hrun
      (ht.trans (complete_of_running i hrun))
  · cases exec_answer hu with
    | faulted hw hr => exact .wordFault i hi hm hw (by rw [ht, hr, complete_raise])
    | completed hw hc =>
      have hurun : u.runState = .running := hc.runState.trans hrun
      exact .completed i u hi (.executed hm hw hc) hurun (ht.trans (complete_of_running i hurun))

/-- A step that does not fault completes an instruction. -/
theorem step_completed {s t : State} (h : step s = .next t) (hok : ∀ r, t.runState ≠ .faulted r) :
    ∃ i u, decode (fetchWindow s) = .ok i ∧ Body i s u ∧ t = settle (emit i.record u) := by
  cases step_outcome h with
  | decodeFault f hf ht | wordFault i hi hm hw ht => subst ht; exact absurd rfl (hok _)
  | completed i u hi hb hu ht => exact ⟨i, u, hi, hb, ht⟩

/-- The status after a completed step is `Running` or `Ended`. -/
theorem completed_not_faulted {i : Instr} {u : State} (hu : u.runState = .running)
    (r : FaultRecord) : (settle (emit i.record u)).runState ≠ .faulted r := by
  rw [settle_runState (s := emit i.record u) hu]
  split <;> nofun

end Sys2Proof.Machine
end

section
/-! The obligations of the family 10_state.md. -/

open Sys2Proof Sys2Proof.Machine Sys2Proof.Statements

namespace Sys2Proof.Proofs

/-- Settles O46: from the outcomes of a step, each with the condition of its fault. -/
theorem runStatusRule : Obligations.RunStatusRule := by
  unfold Obligations.RunStatusRule
  intro s t h
  refine ⟨(step_cases h).1, ?_⟩
  cases step_outcome h with
  | decodeFault f hf ht => subst ht; simp [hf]
  | wordFault i hi hm hw ht => subst ht; simp [hi, hm, hw]
  | completed i u hi hb hu ht =>
    subst ht
    have hfault : ¬ (s.params.mode = .execute ∧ wordAtFFFF i s = true) := by
      cases hb with
      | disassembled hm => simp [hm]
      | executed hm hw => simp [hw]
    have hst := settle_runState (s := emit i.record u) hu
    refine ⟨fun hr => ?_, fun he => ?_, ?_⟩
    · by_contra hlen
      rw [hst, if_pos (by simpa using hlen)] at hr
      cases hr
    · by_contra hlen
      rw [hst, if_neg (by simpa using hlen)] at he
      cases he
    · simp [completed_not_faulted hu, hi, hfault]

/-- Settles O47: a fault keeps `ip`, and a completed instruction moves it by its size unless it is a
taken jnz. -/
theorem onlyTakenJnzLeavesTheSequence : Obligations.OnlyTakenJnzLeavesTheSequence := by
  unfold Obligations.OnlyTakenJnzLeavesTheSequence
  intro s t h
  refine ⟨fun r hr => ?_, fun hok => ?_⟩
  · cases step_outcome h with
    | decodeFault f hf ht | wordFault i hi hm hw ht => rw [ht, raise_ip]
    | completed i u hi hb hu ht => exact absurd (ht ▸ hr) (completed_not_faulted hu r)
  · obtain ⟨i, u, hi, hb, rfl⟩ := step_completed h hok
    refine ⟨i, hi, ?_⟩
    rw [settle_ip, emit_ip]
    cases hb with
    | disassembled hm hu =>
      exact ⟨fun _ => hu ▸ rfl, fun d hm' => by simp [hm] at hm'⟩
    | executed hm hw hc =>
      refine ⟨fun hseq => hc.ip_of_not_taken fun hz => hseq ⟨hm, hz⟩, fun d _ hz hd => ?_⟩
      subst hd
      rw [hc.ip_of_taken hz, jumpTarget_toNat]

/-- Settles O48: a fault and a Disassemble-mode step leave the register file, and a completed
instruction writes only the register of its destination. -/
theorem registerWriters : Obligations.RegisterWriters := by
  unfold Obligations.RegisterWriters
  intro s t n h hne
  cases step_outcome h with
  | decodeFault f hf ht | wordFault i hi hm hw ht => exact absurd (ht ▸ rfl) hne
  | completed i u hi hb hu ht =>
    have hreg : t.reg n = u.reg n := by simp [ht, State.reg]
    cases hb with
    | disassembled hm hu => exact absurd (hreg.trans (hu ▸ rfl)) hne
    | executed hm hw hc =>
      obtain ⟨r, hr⟩ := hc.changed_reg (hreg ▸ hne)
      exact ⟨hm, i, r, hi, hr⟩

/-- Settles O49: the flags word after a completed instruction is the old one, or `withZfSf` of the
result of its own operands. -/
theorem flagWriters : Obligations.FlagWriters := by
  unfold Obligations.FlagWriters
  intro s t h hok
  obtain ⟨i, u, hi, hb, ht⟩ := step_completed h hok
  have hflags : t.flags = u.flags := by rw [ht, settle_flags, emit_flags]
  refine ⟨i, hi, ?_⟩
  cases hb with
  | disassembled hm hu =>
    exact ⟨fun a hm' => by simp [hm] at hm', fun _ => hflags.trans (hu ▸ rfl)⟩
  | executed hm hw hc =>
    obtain ⟨a, src, d, v, hk, hsrc, hd, hv, hf⟩ | ⟨hk, hf⟩ := hc.flags
    · refine ⟨fun a' _ hk' => ?_, fun hno => absurd ⟨hm, a, hk⟩ hno⟩
      obtain rfl : a = a' := by simpa [hk] using hk'
      refine ⟨src, d, v, hsrc, hd, hv, ?_, ?_, fun k h6 h7 => ?_⟩
      · rw [State.zf, zfBit, hflags, hf, withZfSf_zf, resultZero_iff]
      · rw [State.sf, sfBit, hflags, hf, withZfSf_sf, resultSign_eq]
      · rw [hflags, hf, withZfSf_other _ _ _ h6 h7]
    · exact ⟨fun a _ hk' => absurd hk' (hk a), fun _ => hflags.trans hf⟩

/-- Settles O15: the fields of `State.start`. -/
theorem resetValues : Obligations.ResetValues := by
  unfold Obligations.ResetValues
  intro code params initMem
  refine ⟨Regs.get_reset, rfl, rfl, fun hmem p => ?_, fun p => rfl, rfl⟩
  simp [State.start, hmem]

/-- Settles O17: a byte is carried zero-extended, so its slice reads as the byte's number. -/
theorem sliceRead : Obligations.SliceRead := by
  unfold Obligations.SliceRead
  refine fun s => ⟨fun n => rfl, fun n => ?_, fun n => ?_⟩
  · rw [readSlice, zext16_toNat, loByte_toNat]
  · rw [readSlice, zext16_toNat, hiByte_toNat]

end Sys2Proof.Proofs
end

/-! # Proofs of the family 20_memory.md -/

section
/-! SUPPORT. What the memory access at an effective address reads and stores, as numbers
(20_memory.md R52, R53). -/

namespace Sys2Proof

/-- A word is its high byte times 256 plus its low byte (20_memory.md R54). -/
@[simp] theorem wordOfBytes_toNat (lo hi : Byte) :
    (wordOfBytes lo hi).toNat = hi.toNat * 256 + lo.toNat := by
  have hlo : lo.toNat < 2 ^ 8 := lo.isLt
  rw [wordOfBytes, BitVec.toNat_append, ← Nat.shiftLeft_add_eq_or_of_lt hlo, Nat.shiftLeft_eq]

namespace Machine

theorem memRead_byte (ea : Word) (s : State) :
    memRead .byte ea s = some (zext16 (Memory.read s.mem ea.toNat)) := by
  rw [memRead, byteIndex_eq]

theorem memRead_word {ea : Word} {s : State} {h : Nat}
    (hh : hiIndex s.params.hiByteAtFFFF ea = some h) :
    memRead .word ea s =
      some (wordOfBytes (Memory.read s.mem ea.toNat) (Memory.read s.mem h)) := by
  simp only [memRead, hh, byteIndex_eq]

theorem memWrite_byte (ea v : Word) (s : State) :
    memWrite .byte ea v s = some { s with mem := Memory.write s.mem ea.toNat (loByte v) } := by
  rw [memWrite, byteIndex_eq]

theorem memWrite_word {ea : Word} {s : State} {h : Nat} (v : Word)
    (hh : hiIndex s.params.hiByteAtFFFF ea = some h) :
    memWrite .word ea v s = some { s with
      mem := Memory.write (Memory.write s.mem ea.toNat (loByte v)) h (hiByte v) } := by
  simp only [memWrite, hh, byteIndex_eq]

/-- An effective address lies inside data memory. -/
theorem toNat_lt_dataMemorySize (ea : Word) : ea.toNat < dataMemorySize :=
  ea.isLt.trans (by decide)

end Machine
end Sys2Proof
end

section
/-! The obligations of the family 20_memory.md. -/

open Sys2Proof.Machine

namespace Sys2Proof.Proofs

/-- Settles O20: each stored byte reads back, the first one also past the store of the second, which
is at another index. -/
theorem memoryWrite : Obligations.MemoryWrite := by
  unfold Obligations.MemoryWrite
  intro s ea v hwf
  have hwf' : Memory.wf (Memory.write s.mem ea.toNat (loByte v)) = true :=
    Memory.write_wf _ hwf (toNat_lt_dataMemorySize ea)
  have hlo : (Memory.read (Memory.write s.mem ea.toNat (loByte v)) ea.toNat).toNat =
      v.toNat % 256 := by
    rw [Memory.read_write_same hwf, loByte_toNat]
  refine ⟨⟨_, memWrite_byte ea v s, hlo, fun a ha => ?_, rfl⟩,
    fun h hh => ⟨_, memWrite_word v hh, ?_, ?_, fun a ha hah => ?_, rfl⟩⟩
  · exact Memory.read_write_other _ _ ha
  · have hne : ea.toNat ≠ h := byteIndex_eq ea ▸ (hiIndex_spec hh).2.symm
    rw [Memory.read_write_other _ _ hne, hlo]
  · rw [Memory.read_write_same hwf', hiByte_toNat]
  · rw [Memory.read_write_other _ _ hah, Memory.read_write_other _ _ ha]

/-- Settles O19: the bytes read at `ea` and `hi(ea)` are the low and the high byte of the word. -/
theorem memoryRead : Obligations.MemoryRead := by
  unfold Obligations.MemoryRead
  exact fun s ea => ⟨memRead_byte ea s, fun h hh => ⟨_, memRead_word hh, wordOfBytes_toNat _ _⟩⟩

end Sys2Proof.Proofs
end

/-! # Proofs of the family 40_decoder.md -/

section
/-! SUPPORT. What the classifier answers, what a jump opcode decodes to and its record, and the sum
of an effective address as an integer (40_decoder.md R113, R126, R127). -/

namespace Sys2Proof

/-- In a falling list of numbers, the first one for which `f` has a value is the largest. -/
theorem findSome?_eq_some_iff_of_falling {α : Type} {f : Nat → Option α} {ks : List Nat}
    (hks : ks.Pairwise (· > ·)) (e : α) :
    ks.findSome? f = some e ↔
      ∃ k ∈ ks, f k = some e ∧ ∀ k' ∈ ks, k < k' → f k' = none := by
  induction ks with
  | nil => simp
  | cons x xs ih =>
    obtain ⟨hx, hxs⟩ := List.pairwise_cons.mp hks
    cases hfx : f x with
    | none =>
      rw [List.findSome?_cons_of_isNone (by simp [hfx]), ih hxs]
      simp [hfx]
    | some a =>
      rw [List.findSome?_cons_of_isSome (by simp [hfx])]
      constructor
      · intro he
        refine ⟨x, List.mem_cons_self, he, fun k' hk' hlt => ?_⟩
        have hle : k' ≤ x := (List.mem_cons.mp hk').elim Nat.le_of_eq fun h => (hx k' h).le
        exact absurd hlt hle.not_gt
      · rintro ⟨k, hk, hfk, hlarger⟩
        obtain rfl | hk := List.mem_cons.mp hk
        · exact hfk
        · simp [hlarger x List.mem_cons_self (hx k hk)] at hfx

/-- The classifier answers the rel8 entry of a jump or loop kind for its opcode byte
(30_encoding.md R80). -/
@[simp] theorem classify_opcode (j : JumpKind) : classify j.opcode = some (.rel8 j) := by
  cases j <;> decide

/-- The record of an instruction of format REL8 is that of its kind (43_jumps.md R200). -/
@[simp] theorem jumpInstr_record (j : JumpKind) (d : Byte) :
    (jumpInstr j d).record = jumpRecord j d := by
  cases j <;> rfl

/-- A signed byte plus 2 fits in the 32 bits of a jump operand (30_encoding.md R79). -/
theorem relValue_toInt (d : Byte) : (relValue d).toInt = d.toInt + 2 := by
  have hlo : -2 ^ 7 ≤ d.toInt := BitVec.le_toInt d
  have hhi : d.toInt < 2 ^ 7 := BitVec.toInt_lt
  rw [relValue_eq, BitVec.toInt_ofInt, Int.bmod_eq_of_le] <;> omega

/-- A word plus a word read as signed, modulo 2^16 (00_scope.md R10). -/
theorem toNat_add_signed (x d : Word) :
    ((x + d).toNat : Int) = (x.toNat + d.toInt) % 65536 := by
  rw [BitVec.toNat_add, BitVec.toInt_eq_toNat_cond]
  split <;> omega

/-- Two words plus a word read as signed, modulo 2^16 (00_scope.md R10). -/
theorem toNat_add_add_signed (x y d : Word) :
    ((x + y + d).toNat : Int) = (x.toNat + y.toNat + d.toInt) % 65536 := by
  rw [toNat_add_signed, BitVec.toNat_add]
  omega

end Sys2Proof
end

section
/-! The obligations of the family 40_decoder.md. -/

open Sys2Proof Sys2Proof.Machine

namespace Sys2Proof.Proofs

/-- Settles O2: the widths are tried from the longest down, so the first match is at the longest
width that has an entry. -/
theorem longestWidthWins : Obligations.LongestWidthWins := by
  unfold Obligations.LongestWidthWins
  have hfalling : classifierWidths.Pairwise (· > ·) := by decide
  exact fun b =>
    ⟨findSome?_eq_some_iff_of_falling hfalling, List.findSome?_eq_none_iff⟩

/-- Settles O9: the opcode selects the kind's REL8 entry, whose builder reads one byte. -/
theorem jumpsDecode : Obligations.JumpsDecode := by
  unfold Obligations.JumpsDecode
  intro j d rest
  refine ⟨?_, jumpInstr_record j d, relValue_toInt d⟩
  simp only [decode, classify_opcode, List.head?_cons, Option.map_some, orTruncated]

/-- Settles O4: the sixteen rows of the table. -/
theorem registerIndexTable : Obligations.RegisterIndexTable := by
  unfold Obligations.RegisterIndexTable
  decide

/-- Settles O22: a sum of two registers or of one, and the signed displacement. -/
theorem effectiveAddressSum : Obligations.EffectiveAddressSum := by
  unfold Obligations.EffectiveAddressSum
  exact fun s d a => ⟨rfl,
    toNat_add_add_signed _ _ d, toNat_add_add_signed _ _ d,
    toNat_add_add_signed _ _ d, toNat_add_add_signed _ _ d,
    toNat_add_signed _ d, toNat_add_signed _ d, toNat_add_signed _ d, toNat_add_signed _ d⟩

/-- Settles O24: the new flags word is `withZfSf` of the old one, read bit by bit. -/
theorem flagUpdateRule : Obligations.FlagUpdateRule := by
  unfold Obligations.FlagUpdateRule
  refine fun w r s => ⟨?_, ?_, fun k h6 h7 => ?_, rfl⟩
  · rw [flagUpdate_flags, withZfSf_zf, resultZero_iff]
  · rw [flagUpdate_flags, withZfSf_sf, resultSign_eq]
  · rw [flagUpdate_flags, withZfSf_other _ _ _ h6 h7]

end Sys2Proof.Proofs
end

/-! # Proofs of the family 60_exceptions.md -/

section
/-! SUPPORT. What the classifier answers for each first byte, and every decode fault but `Truncated`
with the bytes that raise it (60_exceptions.md R242, R243). -/

open Sys2Proof.Statements

namespace Sys2Proof

/-- A field of a byte as a number (40_decoder.md R110). -/
theorem field_toNat (b : Byte) (offset n : Nat) :
    (field b offset n).toNat = b.toNat / 2 ^ offset % 2 ^ n := by
  rw [field, BitVec.extractLsb'_toNat, Nat.shiftRight_eq_div_pow]

/-- What the first byte selects where that decides a fault, by enumeration of the 256 bytes
(30_encoding.md R80, R81). -/
theorem classify_firstByte (b : Byte) :
    (classify b = none ↔ admittedFirstByte b = false) ∧
    (classify b = some .grpImm ↔ 0x80 ≤ b.toNat ∧ b.toNat ≤ 0x83) ∧
    (classify b = some .immRm ↔ b = 0xC6 ∨ b = 0xC7) := by
  revert b
  decide

theorem classify_eq_none_iff (b : Byte) : classify b = none ↔ admittedFirstByte b = false :=
  (classify_firstByte b).1

theorem classify_eq_grpImm_iff (b : Byte) :
    classify b = some .grpImm ↔ 0x80 ≤ b.toNat ∧ b.toNat ≤ 0x83 :=
  (classify_firstByte b).2.1

theorem classify_eq_immRm_iff (b : Byte) : classify b = some .immRm ↔ b = 0xC6 ∨ b = 0xC7 :=
  (classify_firstByte b).2.2

/-- An extra opcode selects no operation exactly when it is none of 000, 101, 111
(30_encoding.md R83). -/
theorem classifyExtra_eq_none_iff (b1 : Byte) :
    classifyExtra (field b1 3 3) = none ↔ knownExtra (regField b1) = false := by
  have hreg : (field b1 3 3).toNat = regField b1 := field_toNat b1 3 3
  unfold classifyExtra knownExtra
  rw [hreg]
  split <;> simp_all

/-- Among the GRP_IMM bytes the sign-extended byte context is that of 0x82 alone
(60_exceptions.md R243). -/
theorem signExtendByte_iff {b0 : Byte} (hlo : 0x80 ≤ b0.toNat) (hhi : b0.toNat ≤ 0x83) :
    (field b0 1 1 = 1 ∧ field b0 0 1 = 0) ↔ b0 = 0x82 := by
  simp only [← BitVec.toNat_inj, field_toNat, BitVec.reduceToNat]
  omega

/-- The register-direct test of the builder, by arithmetic (30_encoding.md R72). -/
theorem mod_eq_three_iff (b1 : Byte) : field b1 6 2 = 0b11 ↔ modField b1 = 3 := by
  have hb1 : b1.toNat < 2 ^ 8 := b1.isLt
  simp only [← BitVec.toNat_inj, field_toNat, BitVec.reduceToNat, modField]
  omega

/-- The reg-field test of the builder, by arithmetic (30_encoding.md R72). -/
theorem reg_eq_zero_iff (b1 : Byte) : field b1 3 3 = 0b000 ↔ regField b1 = 0 := by
  simp only [← BitVec.toNat_inj, field_toNat, BitVec.reduceToNat, regField]
  exact Iff.rfl

/-- The decode faults other than `Truncated`, each with the bytes that raise it. -/
inductive Misencoded : List Byte → DecodeFault → Prop where
  | unlistedByte (b0 : Byte) (rest : List Byte) (hb0 : admittedFirstByte b0 = false) :
      Misencoded (b0 :: rest) (.unknownOpcode [b0])
  | unlistedExtra (b0 b1 : Byte) (rest : List Byte) (hlo : 0x80 ≤ b0.toNat)
      (hhi : b0.toNat ≤ 0x83) (hext : knownExtra (regField b1) = false) :
      Misencoded (b0 :: b1 :: rest) (.unknownOpcode [b0, b1])
  | registerDirect (b0 b1 : Byte) (rest : List Byte) (hb0 : b0 = 0xC6 ∨ b0 = 0xC7)
      (hmod : modField b1 = 3) :
      Misencoded (b0 :: b1 :: rest) (.malformed .registerDirect [b0, b1])
  | regField (b0 b1 : Byte) (rest : List Byte) (hb0 : b0 = 0xC6 ∨ b0 = 0xC7)
      (hmod : modField b1 ≠ 3) (hreg : regField b1 ≠ 0) :
      Misencoded (b0 :: b1 :: rest) (.malformed .regField [b0, b1])
  | signExtendByte (b1 : Byte) (rest : List Byte) (hext : knownExtra (regField b1) = true) :
      Misencoded (0x82 :: b1 :: rest) (.malformed .signExtendByte [0x82, b1])

theorem Misencoded.decode_eq {bs : List Byte} {f : DecodeFault} (h : Misencoded bs f) :
    decode bs = .fault f := by
  cases h with
  | unlistedByte b0 rest hb0 => simp only [decode, (classify_eq_none_iff b0).2 hb0]
  | unlistedExtra b0 b1 rest hlo hhi hext =>
    simp only [decode, (classify_eq_grpImm_iff b0).2 ⟨hlo, hhi⟩, buildGrpImm,
      (classifyExtra_eq_none_iff b1).2 hext]
  | registerDirect b0 b1 rest hb0 hmod =>
    simp only [decode, (classify_eq_immRm_iff b0).2 hb0, buildImmRm, mod_eq_three_iff, hmod,
      if_true]
  | regField b0 b1 rest hb0 hmod hreg =>
    simp only [decode, (classify_eq_immRm_iff b0).2 hb0, buildImmRm, mod_eq_three_iff, hmod,
      if_false, ne_eq, reg_eq_zero_iff, hreg, not_false_eq_true, if_true]
  | signExtendByte b1 rest hext =>
    have hform : classify 0x82 = some .grpImm := by decide
    have hctx : field 0x82 1 1 = 1 ∧ field 0x82 0 1 = 0 := by decide
    cases ha : classifyExtra (field b1 3 3) with
    | none => simp [(classifyExtra_eq_none_iff b1).1 ha] at hext
    | some a => simp only [decode, hform, buildGrpImm, ha, if_pos hctx]

section
variable {f : DecodeFault} (hf : ∀ read, f ≠ .truncated read)
include hf

/-- Past its own checks a builder raises `Truncated` alone. -/
theorem orTruncated_ne_fault (window : List Byte) (o : Option Instr) :
    orTruncated window o ≠ .fault f := by
  cases o with
  | some i => exact nofun
  | none => exact fun h => hf window (Decoded.fault.inj h).symm

theorem misencoded_of_buildImmRm {b0 : Byte} {rest : List Byte} (hb0 : b0 = 0xC6 ∨ b0 = 0xC7)
    (h : buildImmRm b0 rest = .fault f) : Misencoded (b0 :: rest) f := by
  cases rest with
  | nil => exact absurd (Decoded.fault.inj h).symm (hf _)
  | cons b1 rest =>
    simp only [buildImmRm, mod_eq_three_iff, ne_eq, reg_eq_zero_iff] at h
    split at h
    · next hmod => cases h; exact .registerDirect b0 b1 rest hb0 hmod
    · next hmod =>
      split at h
      · next hreg => cases h; exact .regField b0 b1 rest hb0 hmod hreg
      · exact absurd h (orTruncated_ne_fault hf _ _)

theorem misencoded_of_buildGrpImm {b0 : Byte} {rest : List Byte} (hlo : 0x80 ≤ b0.toNat)
    (hhi : b0.toNat ≤ 0x83) (h : buildGrpImm b0 rest = .fault f) : Misencoded (b0 :: rest) f := by
  cases rest with
  | nil => exact absurd (Decoded.fault.inj h).symm (hf _)
  | cons b1 rest =>
    have hext := classifyExtra_eq_none_iff b1
    cases ha : classifyExtra (field b1 3 3) with
    | none =>
      simp only [buildGrpImm, ha] at h
      cases h
      exact .unlistedExtra b0 b1 rest hlo hhi (hext.1 ha)
    | some a =>
      simp only [buildGrpImm, ha, signExtendByte_iff hlo hhi] at h
      split at h
      · next hb0 =>
        cases h
        subst hb0
        exact .signExtendByte b1 rest (by simpa [ha] using hext)
      · exact absurd h (orTruncated_ne_fault hf _ _)

/-- A decode fault is `Truncated` or one of `Misencoded`. -/
theorem misencoded_of_decode {bs : List Byte} (h : decode bs = .fault f) : Misencoded bs f := by
  cases bs with
  | nil => exact absurd (Decoded.fault.inj h).symm (hf _)
  | cons b0 rest =>
    cases hform : classify b0 with
    | none =>
      simp only [decode, hform] at h
      cases h
      exact .unlistedByte b0 rest ((classify_eq_none_iff b0).1 hform)
    | some form =>
      simp only [decode, hform] at h
      cases form with
      | grpImm =>
        obtain ⟨hlo, hhi⟩ := (classify_eq_grpImm_iff b0).1 hform
        exact misencoded_of_buildGrpImm hf hlo hhi h
      | immRm => exact misencoded_of_buildImmRm hf ((classify_eq_immRm_iff b0).1 hform) h
      | rmReg | rel8 | immReg | memToAcc | accToMem | accImm =>
        exact absurd h (orTruncated_ne_fault hf _ _)

end

end Sys2Proof
end

section
/-! The obligations of the family 60_exceptions.md. -/

open Sys2Proof Sys2Proof.Machine Sys2Proof.Statements

namespace Sys2Proof.Proofs

/-- Settles O12: two of the cases of `Misencoded` are `UnknownOpcode`. -/
theorem unknownOpcodeExactly : Obligations.UnknownOpcodeExactly := by
  unfold Obligations.UnknownOpcodeExactly
  refine fun bs read => ⟨fun h => ?_, ?_⟩
  · cases misencoded_of_decode (by simp) h with
    | unlistedByte b0 rest hb0 => exact .inl ⟨b0, rest, rfl, hb0, rfl⟩
    | unlistedExtra b0 b1 rest hlo hhi hext => exact .inr ⟨b0, b1, rest, rfl, hlo, hhi, hext, rfl⟩
  · rintro (⟨b0, rest, rfl, hb0, rfl⟩ | ⟨b0, b1, rest, rfl, hlo, hhi, hext, rfl⟩)
    · exact (Misencoded.unlistedByte b0 rest hb0).decode_eq
    · exact (Misencoded.unlistedExtra b0 b1 rest hlo hhi hext).decode_eq

/-- Settles O13: the other three cases of `Misencoded` are `MalformedEncoding`. -/
theorem malformedExactly : Obligations.MalformedExactly := by
  unfold Obligations.MalformedExactly
  refine fun bs d read => ⟨fun h => ?_, ?_⟩
  · cases misencoded_of_decode (by simp) h with
    | registerDirect b0 b1 rest hb0 hmod =>
      exact ⟨b0, b1, rest, rfl, rfl, .inl ⟨rfl, hb0, hmod⟩⟩
    | regField b0 b1 rest hb0 hmod hreg =>
      exact ⟨b0, b1, rest, rfl, rfl, .inr (.inl ⟨rfl, hb0, hmod, hreg⟩)⟩
    | signExtendByte b1 rest hext =>
      exact ⟨0x82, b1, rest, rfl, rfl, .inr (.inr ⟨rfl, rfl, hext⟩)⟩
  · rintro ⟨b0, b1, rest, rfl, rfl,
      ⟨rfl, hb0, hmod⟩ | ⟨rfl, hb0, hmod, hreg⟩ | ⟨rfl, rfl, hext⟩⟩
    · exact (Misencoded.registerDirect b0 b1 rest hb0 hmod).decode_eq
    · exact (Misencoded.regField b0 b1 rest hb0 hmod hreg).decode_eq
    · exact (Misencoded.signExtendByte b1 rest hext).decode_eq

/-- Settles O32: an instruction's meaning faults with `WordAtFFFF` or completes, and a completed one
leaves the run status. -/
theorem wordAtFFFFExactly : Obligations.WordAtFFFFExactly := by
  unfold Obligations.WordAtFFFFExactly
  intro i s hrun
  obtain ⟨t, hexec⟩ := exec_next i s
  cases exec_answer hexec with
  | faulted hw ht =>
    subst ht
    exact ⟨⟨fun _ => hw, fun _ => ⟨_, _, hexec, rfl⟩⟩, fun _ => ⟨encode i, hexec⟩⟩
  | completed hw hc =>
    have hrun' : t.runState = .running := hc.runState.trans hrun
    simp [hw, hexec, hrun']

end Sys2Proof.Proofs
end

/-! # Proofs of the family other -/

section
/-! SUPPORT. Bytes put together from fields and taken apart again, and the inverses of the decoder's
small tables (30_encoding.md R71, R72, R75, 40_decoder.md R120). -/

namespace Sys2Proof

@[simp] theorem field_mod_modRm (md : BitVec 2) (reg rm : BitVec 3) :
    field (modRm md reg rm) 6 2 = md := by
  revert md reg rm; decide

@[simp] theorem field_reg_modRm (md : BitVec 2) (reg rm : BitVec 3) :
    field (modRm md reg rm) 3 3 = reg := by
  revert md reg rm; decide

@[simp] theorem field_rm_modRm (md : BitVec 2) (reg rm : BitVec 3) :
    field (modRm md reg rm) 0 3 = rm := by
  revert md reg rm; decide

/-- Every byte is a ModRM-style byte. -/
theorem exists_modRm (b : Byte) : ∃ md reg rm, b = modRm md reg rm :=
  ⟨field b 6 2, field b 3 3, field b 0 3, by revert b; decide⟩

@[simp] theorem modRm_inj {md md' : BitVec 2} {reg reg' rm rm' : BitVec 3} :
    modRm md reg rm = modRm md' reg' rm' ↔ md = md' ∧ reg = reg' ∧ rm = rm' := by
  refine ⟨fun h => ⟨?_, ?_, ?_⟩, fun ⟨hmd, hreg, hrm⟩ => by rw [hmd, hreg, hrm]⟩
  · rw [← field_mod_modRm md reg rm, h, field_mod_modRm]
  · rw [← field_reg_modRm md reg rm, h, field_reg_modRm]
  · rw [← field_rm_modRm md reg rm, h, field_rm_modRm]

@[simp] theorem widthOf_bit (w : Width) : widthOf w.bit = w := by cases w <;> rfl
@[simp] theorem bit_widthOf (b : BitVec 1) : (widthOf b).bit = b := by revert b; decide
@[simp] theorem dirOf_bit (d : Dir) : dirOf d.bit = d := by cases d <;> rfl
@[simp] theorem bit_dirOf (b : BitVec 1) : (dirOf b).bit = b := by revert b; decide

@[simp] theorem addrExprOf_rmBits (e : AddrExpr) : addrExprOf e.rmBits = e := by cases e <;> rfl
@[simp] theorem rmBits_addrExprOf (rm : BitVec 3) : (addrExprOf rm).rmBits = rm := by
  revert rm; decide

@[simp] theorem regOperand_encIndex (r : Slice) : regOperand r.encIndex r.width = r := by
  cases r with
  | word n | low n | high n => cases n <;> rfl

@[simp] theorem encIndex_regOperand (idx : BitVec 3) (w : Width) :
    (regOperand idx w).encIndex = idx := by
  revert idx; cases w <;> decide

@[simp] theorem width_regOperand (idx : BitVec 3) (w : Width) : (regOperand idx w).width = w := by
  revert idx; cases w <;> decide

@[simp] theorem classifyExtra_extBits (a : Arith) : classifyExtra a.extBits = some a := by
  cases a <;> rfl

theorem extBits_of_classifyExtra {ext : BitVec 3} {a : Arith} (h : classifyExtra ext = some a) :
    ext = a.extBits := by
  revert h; revert ext; cases a <;> decide

/-- A first byte with the opcode bits of a form and any operand bits (30_encoding.md R73, R80). -/
inductive FirstByte : OpForm → Byte → Prop where
  | rel8 (j : JumpKind) : FirstByte (.rel8 j) j.opcode
  | immRm (w : BitVec 1) : FirstByte .immRm (0b1100011#7 ++ w)
  | memToAcc (w : BitVec 1) : FirstByte .memToAcc (0b1010000#7 ++ w)
  | accToMem (w : BitVec 1) : FirstByte .accToMem (0b1010001#7 ++ w)
  | accImm (a : Arith) (w : BitVec 1) : FirstByte (.accImm a) (a.accImmBits ++ w)
  | rmReg (k : DataKind) (d w : BitVec 1) : FirstByte (.rmReg k) (k.rmRegBits ++ d ++ w)
  | immReg (w : BitVec 1) (reg : BitVec 3) : FirstByte .immReg (0b1011#4 ++ w ++ reg)
  | grpImm (s w : BitVec 1) : FirstByte .grpImm (0b100000#6 ++ s ++ w)

/-- The byte with the opcode bits of a form and the operand bits of a byte. -/
def OpForm.withOperandBits (b : Byte) : OpForm → Byte
  | .rel8 j => j.opcode
  | .immRm => 0b1100011#7 ++ field b 0 1
  | .memToAcc => 0b1010000#7 ++ field b 0 1
  | .accToMem => 0b1010001#7 ++ field b 0 1
  | .accImm a => a.accImmBits ++ field b 0 1
  | .rmReg k => k.rmRegBits ++ field b 1 1 ++ field b 0 1
  | .immReg => 0b1011#4 ++ field b 3 1 ++ field b 0 3
  | .grpImm => 0b100000#6 ++ field b 1 1 ++ field b 0 1

theorem firstByte_withOperandBits (form : OpForm) (b : Byte) :
    FirstByte form (form.withOperandBits b) := by
  cases form <;> constructor

/-- By enumeration of the 256 bytes (30_encoding.md R80). -/
theorem withOperandBits_classify (b : Byte) :
    ∀ form ∈ classify b, form.withOperandBits b = b := by
  revert b; decide

theorem firstByte_of_classify {b : Byte} {form : OpForm} (h : classify b = some form) :
    FirstByte form b :=
  withOperandBits_classify b form h ▸ firstByte_withOperandBits form b

theorem FirstByte.classify_eq {form : OpForm} {b : Byte} (h : FirstByte form b) :
    classify b = some form := by
  cases h with
  | rel8 j => exact classify_opcode j
  | immRm w | memToAcc w | accToMem w => revert w; decide
  | accImm a w => revert w; cases a <;> decide
  | rmReg k d w =>
    revert d w
    cases k with
    | mov => decide
    | arith a => cases a <;> decide
  | immReg w reg => revert w reg; decide
  | grpImm s w => revert s w; decide

end Sys2Proof
end

section
/-! SUPPORT. What each part of the decoder reads is the encoding of what it answers, and the other
way round (30_encoding.md R74, R78). -/

namespace Sys2Proof

@[simp] theorem loByte_wordOfBytes (lo hi : Byte) : loByte (wordOfBytes lo hi) = lo :=
  BitVec.extractLsb'_append_eq_right

@[simp] theorem hiByte_wordOfBytes (lo hi : Byte) : hiByte (wordOfBytes lo hi) = hi :=
  BitVec.extractLsb'_append_eq_left

theorem wordOfBytes_loByte_hiByte (v : Word) : wordOfBytes (loByte v) (hiByte v) = v := by
  apply BitVec.eq_of_toNat_eq
  rw [wordOfBytes_toNat, loByte_toNat, hiByte_toNat]
  omega

theorem wordOfBytes_eq_iff {lo hi : Byte} {v : Word} :
    wordOfBytes lo hi = v ↔ lo = loByte v ∧ hi = hiByte v := by
  refine ⟨?_, fun ⟨hlo, hhi⟩ => by rw [hlo, hhi, wordOfBytes_loByte_hiByte]⟩
  rintro rfl
  rw [loByte_wordOfBytes, hiByte_wordOfBytes]
  exact ⟨rfl, rfl⟩

theorem takeWord_eq_some_iff {bs r : List Byte} {v : Word} :
    takeWord bs = some (v, r) ↔ bs = wordBytes v ++ r := by
  rcases bs with _ | ⟨lo, _ | ⟨hi, bs⟩⟩
  · simp [takeWord, wordBytes]
  · simp [takeWord, wordBytes]
  · simp [takeWord, wordBytes, wordOfBytes_eq_iff, and_assoc]

theorem addrExprOf_eq_iff {rm : BitVec 3} {e : AddrExpr} : addrExprOf rm = e ↔ rm = e.rmBits :=
  ⟨fun h => by rw [← h, rmBits_addrExprOf], fun h => by rw [h, addrExprOf_rmBits]⟩

theorem regOperand_eq_iff {idx : BitVec 3} {w : Width} {r : Slice} :
    regOperand idx w = r ↔ r.width = w ∧ idx = r.encIndex := by
  refine ⟨fun h => ?_, fun ⟨hw, hidx⟩ => ?_⟩
  · rw [← h, width_regOperand, encIndex_regOperand]
    exact ⟨rfl, rfl⟩
  · rw [← hw, hidx, regOperand_encIndex]

/-- `r/m` = 110 without a displacement is the direct address (30_encoding.md R74). -/
theorem noDisp_wf_iff (e : AddrExpr) : (MemForm.noDisp e).wf = true ↔ e.rmBits ≠ 0b110#3 := by
  cases e <;> decide

theorem decodeMem_direct (bs : List Byte) :
    decodeMem 0b00#2 0b110#3 bs = (takeWord bs).map fun (v, rest) => (.direct v, rest) := rfl

theorem decodeMem_noDisp {rm : BitVec 3} (hrm : rm ≠ 0b110#3) (bs : List Byte) :
    decodeMem 0b00#2 rm bs = some (.noDisp (addrExprOf rm), bs) :=
  if_neg hrm

theorem decodeMem_disp8_nil (rm : BitVec 3) : decodeMem 0b01#2 rm [] = none := rfl

theorem decodeMem_disp8_cons (rm : BitVec 3) (d : Byte) (rest : List Byte) :
    decodeMem 0b01#2 rm (d :: rest) = some (.disp8 (addrExprOf rm) d, rest) := rfl

theorem decodeMem_disp16 (rm : BitVec 3) (bs : List Byte) :
    decodeMem 0b10#2 rm bs =
      (takeWord bs).map fun (v, rest) => (.disp16 (addrExprOf rm) v, rest) := rfl

/-- The memory part of an `r/m` operand reads its encoding (30_encoding.md R74). -/
theorem decodeMem_eq_some_iff {md : BitVec 2} (hmd : md ≠ 0b11#2) (reg : BitVec 3) {rm : BitVec 3}
    {bs r : List Byte} {m : MemForm} :
    decodeMem md rm bs = some (m, r) ↔
      m.wf = true ∧ modRm md reg rm :: bs = m.encode reg ++ r := by
  have hcases : md = 0b00#2 ∨ md = 0b01#2 ∨ md = 0b10#2 := by revert md; decide
  obtain rfl | rfl | rfl := hcases
  · by_cases hrm : rm = 0b110#3
    · subst hrm
      rw [decodeMem_direct]
      cases m with
      | direct v => simp [MemForm.encode, MemForm.wf, takeWord_eq_some_iff]
      | noDisp e => simp +contextual [MemForm.encode, noDisp_wf_iff, Ne, eq_comm (a := 6#3)]
      | disp8 e d | disp16 e d => simp [MemForm.encode]
    · rw [decodeMem_noDisp hrm]
      cases m with
      | noDisp e =>
        have hwf : rm = e.rmBits → (MemForm.noDisp e).wf = true :=
          fun h => (noDisp_wf_iff e).2 (h ▸ hrm)
        simpa [MemForm.encode, addrExprOf_eq_iff] using fun h _ => hwf h
      | direct v | disp8 e d | disp16 e d => simp [MemForm.encode, hrm]
  · cases bs with
    | nil => cases m <;> simp [decodeMem_disp8_nil, MemForm.encode, wordBytes]
    | cons b bs =>
      rw [decodeMem_disp8_cons]
      cases m with
      | disp8 e d => simp [MemForm.encode, MemForm.wf, addrExprOf_eq_iff, and_assoc]
      | direct v | noDisp e | disp16 e d => simp [MemForm.encode]
  · rw [decodeMem_disp16]
    cases m with
    | disp16 e d =>
      simp [MemForm.encode, MemForm.wf, addrExprOf_eq_iff, takeWord_eq_some_iff, and_comm]
    | direct v | noDisp e | disp8 e d => simp [MemForm.encode]

theorem decodeRm_reg (rm : BitVec 3) (w : Width) (bs : List Byte) :
    decodeRm 0b11#2 rm w bs = some (.reg (regOperand rm w), bs) := rfl

theorem decodeRm_mem {md : BitVec 2} (hmd : md ≠ 0b11#2) (rm : BitVec 3) (w : Width)
    (bs : List Byte) :
    decodeRm md rm w bs = (decodeMem md rm bs).map fun (m, rest) => (.mem m, rest) :=
  if_neg hmd

/-- The `r/m` operand reads its encoding (30_encoding.md R74). -/
theorem decodeRm_eq_some_iff {md : BitVec 2} (reg : BitVec 3) {rm : BitVec 3} {w : Width}
    {bs r : List Byte} {x : Rm} :
    decodeRm md rm w bs = some (x, r) ↔
      x.wf w = true ∧ modRm md reg rm :: bs = x.encode reg ++ r := by
  by_cases hmd : md = 0b11#2
  · subst hmd
    rw [decodeRm_reg]
    cases x with
    | reg x => simp [Rm.wf, Rm.encode, regOperand_eq_iff, and_assoc]
    | mem m => cases m <;> simp [Rm.encode, MemForm.encode]
  · rw [decodeRm_mem hmd]
    cases x with
    | reg x => simp [Rm.encode, hmd]
    | mem m => simp [Rm.wf, Rm.encode, decodeMem_eq_some_iff hmd reg]

theorem wordBytes_prefix_iff {lo hi : Byte} {v : Word} {bs : List Byte} :
    wordBytes v <+: lo :: hi :: bs ↔ wordOfBytes lo hi = v := by
  simp [wordOfBytes_eq_iff, wordBytes, eq_comm (b := loByte v), eq_comm (b := hiByte v)]

/-- An immediate of context (false, w) reads its data bytes (30_encoding.md R78). -/
theorem decodeImm_eq_some_iff {w : Width} {bs : List Byte} {imm : Imm} :
    decodeImm w bs = some imm ↔ imm.width = w ∧ imm.bytes <+: bs := by
  cases w with
  | byte =>
    cases imm with
    | byte v => cases bs <;> simp [decodeImm, Imm.width, Imm.bytes, eq_comm (b := v)]
    | word v => cases bs <;> simp [decodeImm, Imm.width]
  | word =>
    rcases bs with _ | ⟨lo, _ | ⟨hi, bs⟩⟩
    · cases imm <;> simp [decodeImm, Imm.width, Imm.bytes, wordBytes]
    · cases imm <;> simp [decodeImm, Imm.width, Imm.bytes, wordBytes]
    · cases imm <;> simp [decodeImm, Imm.width, Imm.bytes, wordBytes_prefix_iff]

/-- An immediate of GRP_IMM reads its data bytes (30_encoding.md R78). -/
theorem decodeGrpImm_eq_some_iff {s : BitVec 1} {w : Width} (hctx : ¬ (s = 1#1 ∧ w = .byte))
    {bs : List Byte} {imm : GrpImm} :
    decodeGrpImm s w bs = some imm ↔ imm.width = w ∧ imm.sBit = s ∧ imm.bytes <+: bs := by
  have hs : s = 0#1 ∨ s = 1#1 := by clear hctx; revert s; decide
  cases w with
  | byte =>
    obtain rfl : s = 0#1 := hs.resolve_right fun h => hctx ⟨h, rfl⟩
    cases imm with
    | byte v =>
      cases bs <;>
        simp [decodeGrpImm, GrpImm.width, GrpImm.sBit, GrpImm.bytes, eq_comm (b := v)]
    | word v | sext v => cases bs <;> simp [decodeGrpImm, GrpImm.width]
  | word =>
    obtain rfl | rfl := hs
    · rcases bs with _ | ⟨lo, _ | ⟨hi, bs⟩⟩
      · cases imm <;> simp [decodeGrpImm, GrpImm.width, GrpImm.sBit, GrpImm.bytes, wordBytes]
      · cases imm <;> simp [decodeGrpImm, GrpImm.width, GrpImm.sBit, GrpImm.bytes, wordBytes]
      · cases imm <;>
          simp [decodeGrpImm, GrpImm.width, GrpImm.sBit, GrpImm.bytes, wordBytes_prefix_iff]
    · cases imm with
      | sext v =>
        cases bs <;>
          simp [decodeGrpImm, GrpImm.width, GrpImm.sBit, GrpImm.bytes, eq_comm (b := v)]
      | byte v | word v => cases bs <;> simp [decodeGrpImm, GrpImm.width, GrpImm.sBit]

end Sys2Proof
end

section
/-! SUPPORT. The eight instruction formats, and what each decodes to and from
(30_encoding.md R73). -/

namespace Sys2Proof

/-- The eight formats that the thirty-four instruction forms have (30_encoding.md R73). -/
inductive InstrFormat : Instr → Prop where
  | rmReg (k : DataKind) (dir : Dir) (w : Width) (reg : Slice) (rm : Rm) :
      InstrFormat (rmRegInstr k dir w reg rm)
  | immRm (m : MemForm) (imm : Imm) : InstrFormat (.movImmRm m imm)
  | immReg (reg : Slice) (imm : Imm) : InstrFormat (.movImmReg reg imm)
  | memToAcc (w : Width) (addr : Word) : InstrFormat (.movMemToAcc w addr)
  | accToMem (w : Width) (addr : Word) : InstrFormat (.movAccToMem w addr)
  | grpImm (a : Arith) (rm : Rm) (imm : GrpImm) : InstrFormat (grpImmInstr a rm imm)
  | accImm (a : Arith) (imm : Imm) : InstrFormat (accImmInstr a imm)
  | rel8 (j : JumpKind) (d : Byte) : InstrFormat (jumpInstr j d)

theorem instrFormat (i : Instr) : InstrFormat i := by
  cases i with
  | movRmReg dir w reg rm => exact .rmReg .mov dir w reg rm
  | movImmRm m imm => exact .immRm m imm
  | movImmReg reg imm => exact .immReg reg imm
  | movMemToAcc w addr => exact .memToAcc w addr
  | movAccToMem w addr => exact .accToMem w addr
  | addRmReg dir w reg rm => exact .rmReg (.arith .add) dir w reg rm
  | addGrpImm rm imm => exact .grpImm .add rm imm
  | addAccImm imm => exact .accImm .add imm
  | subRmReg dir w reg rm => exact .rmReg (.arith .sub) dir w reg rm
  | subGrpImm rm imm => exact .grpImm .sub rm imm
  | subAccImm imm => exact .accImm .sub imm
  | cmpRmReg dir w reg rm => exact .rmReg (.arith .cmp) dir w reg rm
  | cmpGrpImm rm imm => exact .grpImm .cmp rm imm
  | cmpAccImm imm => exact .accImm .cmp imm
  | je d => exact .rel8 .je d
  | jl d => exact .rel8 .jl d
  | jle d => exact .rel8 .jle d
  | jb d => exact .rel8 .jb d
  | jbe d => exact .rel8 .jbe d
  | jp d => exact .rel8 .jp d
  | jo d => exact .rel8 .jo d
  | js d => exact .rel8 .js d
  | jnz d => exact .rel8 .jnz d
  | jnl d => exact .rel8 .jnl d
  | jg d => exact .rel8 .jg d
  | jnb d => exact .rel8 .jnb d
  | ja d => exact .rel8 .ja d
  | jnp d => exact .rel8 .jnp d
  | jno d => exact .rel8 .jno d
  | jns d => exact .rel8 .jns d
  | loop d => exact .rel8 .loop d
  | loopz d => exact .rel8 .loopz d
  | loopnz d => exact .rel8 .loopnz d
  | jcxz d => exact .rel8 .jcxz d

/-! ## The functions of an instruction, by format -/

theorem rmRegInstr_spec (k : DataKind) (dir : Dir) (w : Width) (reg : Slice) (rm : Rm) :
    (rmRegInstr k dir w reg rm).wf = (reg.width == w && rm.wf w) ∧
      encode (rmRegInstr k dir w reg rm) = encodeRmReg k dir w reg rm ∧
      (rmRegInstr k dir w reg rm).record = dataRecord k w (rmRegInstr k dir w reg rm).size
        (rmRegDst dir reg rm) (rmRegSrc dir reg rm) := by
  cases k with
  | mov => exact ⟨rfl, rfl, rfl⟩
  | arith a => cases a <;> exact ⟨rfl, rfl, rfl⟩

theorem grpImmInstr_spec (a : Arith) (rm : Rm) (imm : GrpImm) :
    (grpImmInstr a rm imm).wf = rm.wf imm.width ∧
      encode (grpImmInstr a rm imm) = encodeGrpImm a rm imm ∧
      (grpImmInstr a rm imm).record = dataRecord (.arith a) imm.width (grpImmInstr a rm imm).size
        rm.loc (.imm imm.value) := by
  cases a <;> exact ⟨rfl, rfl, rfl⟩

theorem accImmInstr_spec (a : Arith) (imm : Imm) :
    (accImmInstr a imm).wf = true ∧ encode (accImmInstr a imm) = encodeAccImm a imm ∧
      (accImmInstr a imm).record = dataRecord (.arith a) imm.width (accImmInstr a imm).size
        (.reg (accumulator imm.width)) (.imm imm.value) := by
  cases a <;> exact ⟨rfl, rfl, rfl⟩

theorem jumpInstr_spec (j : JumpKind) (d : Byte) :
    (jumpInstr j d).wf = true ∧ encode (jumpInstr j d) = encodeJump j d := by
  cases j <;> exact ⟨rfl, rfl⟩

/-! ## Operand bits of a first byte -/

@[simp] theorem field_append_bit (x : BitVec 7) (w : BitVec 1) : field (x ++ w) 0 1 = w :=
  BitVec.extractLsb'_append_eq_right

@[simp] theorem field_append_bits (x : BitVec 6) (d w : BitVec 1) :
    field (x ++ d ++ w) 1 1 = d ∧ field (x ++ d ++ w) 0 1 = w := by
  revert x d w; decide

@[simp] theorem field_append_index (x : BitVec 4) (w : BitVec 1) (reg : BitVec 3) :
    field (x ++ w ++ reg) 3 1 = w ∧ field (x ++ w ++ reg) 0 3 = reg := by
  revert x w reg; decide

/-! ## What the bytes of a format decode to -/

@[simp] theorem orTruncated_eq_ok_iff {window : List Byte} {o : Option Instr} {i : Instr} :
    orTruncated window o = .ok i ↔ o = some i := by
  cases o <;> simp [orTruncated]

@[simp] theorem orTruncated_some (window : List Byte) (i : Instr) :
    orTruncated window (some i) = .ok i := rfl

/-- The encoding of a memory operand begins with a ModRM-style byte that holds `reg`. -/
theorem memForm_encode_eq_modRm (reg : BitVec 3) (m : MemForm) (rest : List Byte) :
    ∃ md ≠ 0b11#2, ∃ rmBits tl, m.encode reg ++ rest = modRm md reg rmBits :: tl := by
  cases m <;> exact ⟨_, by decide, _, _, rfl⟩

/-- The encoding of an `r/m` operand begins with a ModRM-style byte that holds `reg`. -/
theorem rm_encode_eq_modRm (reg : BitVec 3) (rm : Rm) (rest : List Byte) :
    ∃ md rmBits tl, rm.encode reg ++ rest = modRm md reg rmBits :: tl := by
  cases rm with
  | reg r => exact ⟨_, _, _, rfl⟩
  | mem m =>
    obtain ⟨md, -, htl⟩ := memForm_encode_eq_modRm reg m rest
    exact ⟨md, htl⟩

@[simp] theorem bit_eq_zero_iff (w : Width) : w.bit = 0#1 ↔ w = .byte := by cases w <;> decide

/-- No GRP_IMM immediate has the context (true, false) (30_encoding.md R78). -/
theorem grpImm_context (imm : GrpImm) : ¬ (imm.sBit = 1#1 ∧ imm.width = .byte) := by
  cases imm <;> simp [GrpImm.sBit, GrpImm.width]

/-- Decoding gives back every well-formed instruction from its encoding: format by format, the first
byte selects the format and each operand is read from its own bytes. -/
theorem decode_encode {i : Instr} (hwf : i.wf = true) (rest : List Byte) :
    decode (encode i ++ rest) = .ok i := by
  cases instrFormat i with
  | rmReg k dir w reg rm =>
    obtain ⟨hwf', henc, -⟩ := rmRegInstr_spec k dir w reg rm
    rw [hwf', Bool.and_eq_true, beq_iff_eq] at hwf
    obtain ⟨rfl, hrm⟩ := hwf
    obtain ⟨md, rmBits, tl, htl⟩ := rm_encode_eq_modRm reg.encIndex rm rest
    rw [henc, encodeRmReg, List.cons_append, htl]
    simp [decode, (FirstByte.rmReg ..).classify_eq, buildRmReg,
      (decodeRm_eq_some_iff reg.encIndex).2 ⟨hrm, htl.symm⟩]
  | immRm m imm =>
    obtain ⟨md, hmd, rmBits, tl, htl⟩ := memForm_encode_eq_modRm 0b000 m (imm.bytes ++ rest)
    have himm := decodeImm_eq_some_iff.2 ⟨rfl, imm.bytes.prefix_append rest⟩
    have hm := (decodeMem_eq_some_iff hmd _).2 ⟨hwf, htl.symm⟩
    rw [encode, List.append_assoc, List.cons_append, htl]
    simp [decode, (FirstByte.immRm ..).classify_eq, buildImmRm, hmd, hm, himm]
  | immReg reg imm =>
    have hreg := regOperand_eq_iff.2 ⟨beq_iff_eq.1 hwf, rfl⟩
    have himm := decodeImm_eq_some_iff.2 ⟨rfl, imm.bytes.prefix_append rest⟩
    simp [encode, decode, (FirstByte.immReg ..).classify_eq, himm, hreg]
  | memToAcc w addr =>
    simp [encode, decode, (FirstByte.memToAcc ..).classify_eq, takeWord_eq_some_iff.2 rfl]
  | accToMem w addr =>
    simp [encode, decode, (FirstByte.accToMem ..).classify_eq, takeWord_eq_some_iff.2 rfl]
  | grpImm a rm imm =>
    obtain ⟨hwf', henc, -⟩ := grpImmInstr_spec a rm imm
    obtain ⟨md, rmBits, tl, htl⟩ := rm_encode_eq_modRm a.extBits rm (imm.bytes ++ rest)
    have hctx := grpImm_context imm
    have himm := (decodeGrpImm_eq_some_iff hctx).2 ⟨rfl, rfl, imm.bytes.prefix_append rest⟩
    have hrm := (decodeRm_eq_some_iff a.extBits).2 ⟨hwf' ▸ hwf, htl.symm⟩
    rw [henc, encodeGrpImm, List.append_assoc, List.cons_append, htl]
    simp [decode, (FirstByte.grpImm ..).classify_eq, buildGrpImm, -not_and, hctx, hrm, himm]
  | accImm a imm =>
    have himm := decodeImm_eq_some_iff.2 ⟨rfl, imm.bytes.prefix_append rest⟩
    rw [(accImmInstr_spec a imm).2.1]
    simp [encodeAccImm, decode, (FirstByte.accImm ..).classify_eq, himm]
  | rel8 j d =>
    simp [(jumpInstr_spec j d).2, encodeJump, decode]

/-- What the RM_REG arm of the builder read. -/
theorem buildRmReg_eq_some {k : DataKind} {b0 : Byte} {rest : List Byte} {i : Instr}
    (h : buildRmReg k b0 rest = some i) :
    ∃ reg rm, rmRegInstr k (dirOf (field b0 1 1)) (widthOf (field b0 0 1)) reg rm = i ∧
      reg.width = widthOf (field b0 0 1) ∧ rm.wf (widthOf (field b0 0 1)) = true ∧
      rm.encode reg.encIndex <+: rest := by
  cases rest with
  | nil => cases h
  | cons b1 rest =>
    obtain ⟨md, reg, rmBits, rfl⟩ := exists_modRm b1
    obtain ⟨⟨rm, tl⟩, hrm, hi⟩ := Option.map_eq_some_iff.1 h
    rw [field_mod_modRm, field_rm_modRm, decodeRm_eq_some_iff reg] at hrm
    rw [field_reg_modRm] at hi
    refine ⟨_, rm, hi, width_regOperand .., hrm.1, tl, ?_⟩
    rw [encIndex_regOperand, hrm.2]

/-- What the IMM_RM arm of the builder read. -/
theorem buildImmRm_eq_ok {b0 : Byte} {rest : List Byte} {i : Instr}
    (h : buildImmRm b0 rest = .ok i) :
    ∃ m imm, .movImmRm m imm = i ∧ m.wf = true ∧ imm.width = widthOf (field b0 0 1) ∧
      m.encode 0b000 ++ imm.bytes <+: rest := by
  cases rest with
  | nil => cases h
  | cons b1 rest =>
    obtain ⟨md, reg, rmBits, rfl⟩ := exists_modRm b1
    simp only [buildImmRm, field_mod_modRm, field_reg_modRm, field_rm_modRm, ne_eq, ite_not] at h
    split_ifs at h with hmd hreg
    subst hreg
    rw [orTruncated_eq_ok_iff] at h
    split at h
    · next m tl hm =>
      obtain ⟨imm, himm, hi⟩ := Option.map_eq_some_iff.1 h
      obtain ⟨hw, hp⟩ := decodeImm_eq_some_iff.1 himm
      obtain ⟨hwf, htl⟩ := (decodeMem_eq_some_iff hmd 0b000).1 hm
      refine ⟨m, imm, hi, hwf, hw, ?_⟩
      rw [htl]
      exact (List.prefix_append_right_inj _).2 hp
    · cases h

/-- What the GRP_IMM arm of the builder read. -/
theorem buildGrpImm_eq_ok {b0 : Byte} {rest : List Byte} {i : Instr}
    (h : buildGrpImm b0 rest = .ok i) :
    ∃ a rm imm, grpImmInstr a rm imm = i ∧ rm.wf imm.width = true ∧
      imm.width = widthOf (field b0 0 1) ∧ imm.sBit = field b0 1 1 ∧
      rm.encode a.extBits ++ imm.bytes <+: rest := by
  cases rest with
  | nil => cases h
  | cons b1 rest =>
    obtain ⟨md, reg, rmBits, rfl⟩ := exists_modRm b1
    simp only [buildGrpImm, field_mod_modRm, field_reg_modRm, field_rm_modRm] at h
    split at h
    · cases h
    · next a ha =>
      split_ifs at h with hctx
      rw [orTruncated_eq_ok_iff] at h
      split at h
      · next rm tl hrm =>
        obtain ⟨imm, himm, hi⟩ := Option.map_eq_some_iff.1 h
        have hctx' : ¬ (field b0 1 1 = 1#1 ∧ widthOf (field b0 0 1) = .byte) := by
          rwa [← bit_eq_zero_iff, bit_widthOf]
        obtain ⟨hw, hs, hp⟩ := (decodeGrpImm_eq_some_iff hctx').1 himm
        obtain ⟨hwf, htl⟩ := (decodeRm_eq_some_iff reg).1 hrm
        refine ⟨a, rm, imm, hi, hw ▸ hwf, hw, hs, ?_⟩
        rw [← extBits_of_classifyExtra ha, htl]
        exact (List.prefix_append_right_inj _).2 hp
      · cases h

/-- What decodes is well formed and was read from its encoding: format by format. -/
theorem encode_decode {bs : List Byte} {i : Instr} (h : decode bs = .ok i) :
    i.wf = true ∧ encode i <+: bs := by
  cases bs with
  | nil => cases h
  | cons b0 rest =>
    cases hform : classify b0 with
    | none => simp [decode, hform] at h
    | some form =>
      cases firstByte_of_classify hform
      all_goals simp only [decode, hform, orTruncated_eq_ok_iff, Option.map_eq_some_iff,
        decodeImm_eq_some_iff, List.head?_eq_some_iff] at h
      case rel8 j =>
        obtain ⟨d, ⟨tl, rfl⟩, rfl⟩ := h
        simp [jumpInstr_spec, encodeJump]
      case immRm w =>
        obtain ⟨m, imm, rfl, hwf, hw, hp⟩ := buildImmRm_eq_ok h
        rw [field_append_bit] at hw
        exact ⟨hwf, by simpa [encode, hw] using hp⟩
      case memToAcc w | accToMem w =>
        obtain ⟨⟨addr, tl⟩, haddr, rfl⟩ := h
        simp [Instr.wf, encode, takeWord_eq_some_iff.1 haddr]
      case accImm a w =>
        obtain ⟨imm, ⟨hw, hp⟩, rfl⟩ := h
        rw [field_append_bit] at hw
        simp [accImmInstr_spec, encodeAccImm, hw, hp]
      case rmReg k d w =>
        obtain ⟨reg, rm, rfl, hreg, hrm, hp⟩ := buildRmReg_eq_some h
        simp only [field_append_bits] at hreg hrm hp ⊢
        simp [rmRegInstr_spec, encodeRmReg, hreg, hrm, hp]
      case immReg w reg =>
        obtain ⟨imm, ⟨hw, hp⟩, rfl⟩ := h
        simp only [field_append_index] at hw ⊢
        simp [Instr.wf, encode, hw, hp]
      case grpImm s w =>
        obtain ⟨a, rm, imm, rfl, hrm, hw, hs, hp⟩ := buildGrpImm_eq_ok h
        simp only [field_append_bits] at hw hs
        rw [hw] at hrm
        simp [grpImmInstr_spec, encodeGrpImm, hw, hs, hrm, hp]

end Sys2Proof
end

section
/-! SUPPORT. An instruction's length, and what an instruction cut short decodes to
(30_encoding.md R84, 60_exceptions.md R244). -/

namespace Sys2Proof

/-- The encoding of every instruction has its length, 1 to 6 bytes (30_encoding.md R70, R84). -/
theorem encode_length : ∀ i : Instr, Laws.EncodedLength.Statement i
  | .movRmReg .. => Laws.EncodedLength.movRmReg ..
  | .movImmRm .. => Laws.EncodedLength.movImmRm ..
  | .movImmReg .. => Laws.EncodedLength.movImmReg ..
  | .movMemToAcc .. => Laws.EncodedLength.movMemToAcc ..
  | .movAccToMem .. => Laws.EncodedLength.movAccToMem ..
  | .addRmReg .. => Laws.EncodedLength.addRmReg ..
  | .addGrpImm .. => Laws.EncodedLength.addGrpImm ..
  | .addAccImm .. => Laws.EncodedLength.addAccImm ..
  | .subRmReg .. => Laws.EncodedLength.subRmReg ..
  | .subGrpImm .. => Laws.EncodedLength.subGrpImm ..
  | .subAccImm .. => Laws.EncodedLength.subAccImm ..
  | .cmpRmReg .. => Laws.EncodedLength.cmpRmReg ..
  | .cmpGrpImm .. => Laws.EncodedLength.cmpGrpImm ..
  | .cmpAccImm .. => Laws.EncodedLength.cmpAccImm ..
  | .je d => Laws.EncodedLength.je d
  | .jl d => Laws.EncodedLength.jl d
  | .jle d => Laws.EncodedLength.jle d
  | .jb d => Laws.EncodedLength.jb d
  | .jbe d => Laws.EncodedLength.jbe d
  | .jp d => Laws.EncodedLength.jp d
  | .jo d => Laws.EncodedLength.jo d
  | .js d => Laws.EncodedLength.js d
  | .jnz d => Laws.EncodedLength.jnz d
  | .jnl d => Laws.EncodedLength.jnl d
  | .jg d => Laws.EncodedLength.jg d
  | .jnb d => Laws.EncodedLength.jnb d
  | .ja d => Laws.EncodedLength.ja d
  | .jnp d => Laws.EncodedLength.jnp d
  | .jno d => Laws.EncodedLength.jno d
  | .jns d => Laws.EncodedLength.jns d
  | .loop d => Laws.EncodedLength.loop d
  | .loopz d => Laws.EncodedLength.loopz d
  | .loopnz d => Laws.EncodedLength.loopnz d
  | .jcxz d => Laws.EncodedLength.jcxz d

theorem record_size (i : Instr) : i.record.size = i.size := by
  cases i <;> rfl

/-- A misencoded instruction stays misencoded whatever bytes follow. -/
theorem Misencoded.append {bs : List Byte} {f : DecodeFault} (h : Misencoded bs f)
    (more : List Byte) : Misencoded (bs ++ more) f := by
  cases h with
  | unlistedByte b0 rest hb0 => exact .unlistedByte b0 _ hb0
  | unlistedExtra b0 b1 rest hlo hhi hext => exact .unlistedExtra b0 b1 _ hlo hhi hext
  | registerDirect b0 b1 rest hb0 hmod => exact .registerDirect b0 b1 _ hb0 hmod
  | regField b0 b1 rest hb0 hmod hreg => exact .regField b0 b1 _ hb0 hmod hreg
  | signExtendByte b1 rest hext => exact .signExtendByte b1 _ hext

theorem Misencoded.unknownOpcode_read {bs read : List Byte}
    (h : Misencoded bs (.unknownOpcode read)) :
    read <+: bs ∧ (read.length = 1 ∨ read.length = 2) := by
  cases h with
  | unlistedByte b0 rest => exact ⟨⟨rest, rfl⟩, .inl rfl⟩
  | unlistedExtra b0 b1 rest => exact ⟨⟨rest, rfl⟩, .inr rfl⟩

theorem Misencoded.malformed_read {bs read : List Byte} {d : MalformedDetail}
    (h : Misencoded bs (.malformed d read)) : read <+: bs ∧ read.length = 2 := by
  cases h with
  | registerDirect b0 b1 rest | regField b0 b1 rest | signExtendByte b1 rest =>
    exact ⟨⟨rest, rfl⟩, rfl⟩

@[simp] theorem orTruncated_eq_truncated_iff {window read : List Byte} {o : Option Instr} :
    orTruncated window o = .fault (.truncated read) ↔ o = none ∧ read = window := by
  cases o <;> simp [orTruncated, eq_comm]

/-! ## Each part of the decoder lacks fewer than two bytes when it runs out -/

theorem takeWord_eq_none {bs : List Byte} (h : takeWord bs = none) : bs.length < 2 := by
  rcases bs with _ | ⟨lo, _ | ⟨hi, bs⟩⟩
  · decide
  · exact Nat.one_lt_two
  · cases h

theorem decodeImm_eq_none {w : Width} {bs : List Byte} (h : decodeImm w bs = none) :
    bs.length < 2 := by
  rcases bs with _ | ⟨lo, _ | ⟨hi, bs⟩⟩
  · decide
  · exact Nat.one_lt_two
  · cases w <;> cases h

theorem decodeGrpImm_eq_none {s : BitVec 1} {w : Width} {bs : List Byte}
    (h : decodeGrpImm s w bs = none) : bs.length < 2 := by
  rcases bs with _ | ⟨lo, _ | ⟨hi, bs⟩⟩
  · decide
  · exact Nat.one_lt_two
  · cases w with
    | byte => cases h
    | word => simp only [decodeGrpImm] at h; split at h <;> cases h

theorem decodeMem_eq_none {md : BitVec 2} {rm : BitVec 3} {bs : List Byte}
    (h : decodeMem md rm bs = none) : bs.length < 2 := by
  unfold decodeMem at h
  split_ifs at h
  · exact takeWord_eq_none (Option.map_eq_none_iff.1 h)
  · cases bs with
    | nil => decide
    | cons b bs => cases h
  · exact takeWord_eq_none (Option.map_eq_none_iff.1 h)

theorem decodeRm_eq_none {md : BitVec 2} {rm : BitVec 3} {w : Width} {bs : List Byte}
    (h : decodeRm md rm w bs = none) : bs.length < 2 := by
  unfold decodeRm at h
  split_ifs at h
  exact decodeMem_eq_none (Option.map_eq_none_iff.1 h)

/-- An `r/m` operand takes at most two bytes after the ModRM-style byte (30_encoding.md R84). -/
theorem decodeRm_rest_length {md : BitVec 2} {rm : BitVec 3} {w : Width} {bs r : List Byte} {x : Rm}
    (h : decodeRm md rm w bs = some (x, r)) : bs.length ≤ r.length + 2 := by
  have hlen := congrArg List.length ((decodeRm_eq_some_iff 0#3).1 h).2
  have hx := Laws.rm_encode_length 0#3 x
  rw [List.length_append, List.length_cons] at hlen
  omega

theorem decodeMem_rest_length {md : BitVec 2} (hmd : md ≠ 0b11#2) {rm : BitVec 3}
    {bs r : List Byte} {m : MemForm} (h : decodeMem md rm bs = some (m, r)) :
    bs.length ≤ r.length + 2 :=
  decodeRm_rest_length (w := .byte) (x := .mem m) (by rw [decodeRm_mem hmd, h]; rfl)

theorem buildRmReg_eq_none {k : DataKind} {b0 : Byte} {rest : List Byte}
    (h : buildRmReg k b0 rest = none) : rest.length < 3 := by
  cases rest with
  | nil => decide
  | cons b1 rest =>
    have hrest := decodeRm_eq_none (Option.map_eq_none_iff.1 h)
    exact Nat.succ_lt_succ hrest

theorem buildImmRm_eq_truncated {b0 : Byte} {rest read : List Byte}
    (h : buildImmRm b0 rest = .fault (.truncated read)) :
    read = b0 :: rest ∧ rest.length < 5 := by
  cases rest with
  | nil => cases h; exact ⟨rfl, by decide⟩
  | cons b1 rest =>
    simp only [buildImmRm] at h
    split_ifs at h with hmd hreg
    · cases h
    · cases h
    · obtain ⟨hnone, hread⟩ := orTruncated_eq_truncated_iff.1 h
      refine ⟨hread, ?_⟩
      rw [List.length_cons]
      split at hnone
      · next m tl hm =>
        have himm := decodeImm_eq_none (Option.map_eq_none_iff.1 hnone)
        have hlen := decodeMem_rest_length hmd hm
        omega
      · next hm =>
        have hlen := decodeMem_eq_none hm
        omega

theorem buildGrpImm_eq_truncated {b0 : Byte} {rest read : List Byte}
    (h : buildGrpImm b0 rest = .fault (.truncated read)) :
    read = b0 :: rest ∧ rest.length < 5 := by
  cases rest with
  | nil => cases h; exact ⟨rfl, by decide⟩
  | cons b1 rest =>
    simp only [buildGrpImm] at h
    split at h
    · cases h
    · next a ha =>
      split_ifs at h with hctx
      · cases h
      · obtain ⟨hnone, hread⟩ := orTruncated_eq_truncated_iff.1 h
        refine ⟨hread, ?_⟩
        rw [List.length_cons]
        split at hnone
        · next rm tl hrm =>
          have himm := decodeGrpImm_eq_none (Option.map_eq_none_iff.1 hnone)
          have hlen := decodeRm_rest_length hrm
          omega
        · next hrm =>
          have hlen := decodeRm_eq_none hrm
          omega

/-- `Truncated` has read every byte there is, fewer than six (60_exceptions.md R244). -/
theorem decode_eq_truncated {bs read : List Byte} (h : decode bs = .fault (.truncated read)) :
    read = bs ∧ bs.length < 6 := by
  cases bs with
  | nil => cases h; exact ⟨rfl, by decide⟩
  | cons b0 rest =>
    suffices hrest : read = b0 :: rest ∧ rest.length < 5 from
      ⟨hrest.1, Nat.succ_lt_succ hrest.2⟩
    cases hform : classify b0 with
    | none => simp [decode, hform] at h
    | some form =>
      cases form
      all_goals simp only [decode, hform, orTruncated_eq_truncated_iff, Option.map_eq_none_iff,
        List.head?_eq_none_iff] at h
      case grpImm => exact buildGrpImm_eq_truncated h
      case immRm => exact buildImmRm_eq_truncated h
      case rmReg k => exact ⟨h.2, (buildRmReg_eq_none h.1).trans (by decide)⟩
      case rel8 j => exact ⟨h.2, by rw [h.1]; decide⟩
      case immReg | accImm => exact ⟨h.2, (decodeImm_eq_none h.1).trans (by decide)⟩
      case memToAcc | accToMem => exact ⟨h.2, (takeWord_eq_none h.1).trans (by decide)⟩

/-- A cut instruction is no other instruction and not misencoded, so `Truncated` is what is left. -/
theorem decode_take_encode {i : Instr} (hwf : i.wf = true) {n : Nat} (hn : n < i.size) :
    decode ((encode i).take n) = .fault (.truncated ((encode i).take n)) := by
  have hcut : (encode i).take n ++ (encode i).drop n = encode i := List.take_append_drop ..
  have hi : decode (encode i) = .ok i := by simpa using decode_encode hwf []
  cases h : decode ((encode i).take n) with
  | ok j =>
    obtain ⟨hj, tl, htl⟩ := encode_decode h
    have hji : decode (encode i) = .ok j := by
      rw [← hcut, ← htl, List.append_assoc]
      exact decode_encode hj _
    obtain rfl : i = j := Decoded.ok.inj (hi.symm.trans hji)
    have hlen := congrArg List.length htl
    rw [List.length_append, List.length_take, (encode_length i).1] at hlen
    omega
  | fault f =>
    by_cases hf : ∃ read, f = .truncated read
    · obtain ⟨read, rfl⟩ := hf
      rw [(decode_eq_truncated h).1]
    · have hmis := (misencoded_of_decode (not_exists.1 hf) h).append ((encode i).drop n)
      rw [hcut] at hmis
      cases hi.symm.trans hmis.decode_eq

/-! ## Invariants of a built record (40_decoder.md R131) -/

/-- The invariants of a record as R131 has them, but for its size. -/
structure RecordInvariants (r : InstRecord) : Prop where
  one_operand : r.op1 = none ↔ ∃ j, r.kind = .jump j
  mem_source : ∀ m op, r.op0 = .mem m → r.op1 = some op →
    (∃ x, op = .reg x) ∨ ∃ v, op = .imm v
  op0_width : ∀ x, r.op0 = .reg x → x.width = r.wide
  op1_width : ∀ x, r.op1 = some (.reg x) → x.width = r.wide
  op0_loc : ∀ op, r.op1 = some op → ∃ dst : Loc, r.op0 = dst.operand
  jump_byte : r.op1 = none → r.wide = .byte

theorem jumpRecord_invariants (j : JumpKind) (d : Byte) : RecordInvariants (jumpRecord j d) :=
  ⟨⟨fun _ => ⟨j, rfl⟩, fun _ => rfl⟩, nofun, nofun, nofun, nofun, fun _ => rfl⟩

open Machine in
theorem dataRecord_invariants {k : DataKind} {w : Width} {n : Nat} {dst : Loc} {src : Operand}
    (hone : OneInMemory dst src) (hdst : ∀ x, dst = .reg x → x.width = w)
    (hsrc : ∀ x, src = .reg x → x.width = w) : RecordInvariants (dataRecord k w n dst src) where
  one_operand := ⟨nofun, nofun⟩
  mem_source m op h0 h1 := by
    cases hone with
    | dstReg => cases h0
    | srcReg dst r => cases h1; exact .inl ⟨r, rfl⟩
    | srcImm dst v => cases h1; exact .inr ⟨v, rfl⟩
  op0_width x h := by
    cases dst with
    | reg r => exact hdst x (by cases h; rfl)
    | mem m => cases h
  op1_width x h := hsrc x (Option.some.inj h)
  op0_loc _ _ := ⟨dst, rfl⟩
  jump_byte := nofun

theorem rmLoc_width {w : Width} {rm : Rm} (hrm : rm.wf w = true) {x : Slice}
    (h : rm.loc = .reg x) : x.width = w := by
  cases rm with
  | reg r => cases h; exact beq_iff_eq.1 hrm
  | mem m => cases h

theorem rmRegDst_width {w : Width} {reg : Slice} {rm : Rm} (dir : Dir) (hreg : reg.width = w)
    (hrm : rm.wf w = true) {x : Slice} (h : rmRegDst dir reg rm = .reg x) : x.width = w := by
  cases dir with
  | toReg => cases h; exact hreg
  | toRm => exact rmLoc_width hrm h

theorem rmRegSrc_width {w : Width} {reg : Slice} {rm : Rm} (dir : Dir) (hreg : reg.width = w)
    (hrm : rm.wf w = true) {x : Slice} (h : rmRegSrc dir reg rm = .reg x) : x.width = w := by
  cases dir with
  | toRm => cases h; exact hreg
  | toReg =>
    cases rm with
    | reg r => cases h; exact rmLoc_width hrm rfl
    | mem m => cases h

@[simp] theorem accumulator_width (w : Width) : (accumulator w).width = w := by cases w <;> rfl

open Machine in
theorem record_invariants {i : Instr} (hwf : i.wf = true) : RecordInvariants i.record := by
  cases instrFormat i with
  | rmReg k dir w reg rm =>
    obtain ⟨hwf', -, hrec⟩ := rmRegInstr_spec k dir w reg rm
    rw [hwf', Bool.and_eq_true, beq_iff_eq] at hwf
    obtain ⟨hreg, hrm⟩ := hwf
    rw [hrec]
    exact dataRecord_invariants (.rmReg ..) (fun _ => rmRegDst_width dir hreg hrm)
      (fun _ => rmRegSrc_width dir hreg hrm)
  | immRm m imm => exact dataRecord_invariants (.srcImm ..) nofun nofun
  | immReg reg imm =>
    exact dataRecord_invariants (.srcImm ..)
      (fun _ h => by cases h; exact beq_iff_eq.1 hwf) nofun
  | memToAcc w addr =>
    exact dataRecord_invariants (.dstReg ..) (fun _ h => by cases h; exact accumulator_width w)
      nofun
  | accToMem w addr =>
    exact dataRecord_invariants (.srcReg ..) nofun
      (fun _ h => by cases h; exact accumulator_width w)
  | grpImm a rm imm =>
    obtain ⟨hwf', -, hrec⟩ := grpImmInstr_spec a rm imm
    rw [hrec]
    exact dataRecord_invariants (.srcImm ..) (fun _ => rmLoc_width (hwf' ▸ hwf)) nofun
  | accImm a imm =>
    rw [(accImmInstr_spec a imm).2.2]
    exact dataRecord_invariants (.srcImm ..)
      (fun _ h => by cases h; exact accumulator_width _) nofun
  | rel8 j d =>
    rw [jumpInstr_record]
    exact jumpRecord_invariants j d

end Sys2Proof
end

section
/-! The obligations on the encoding that rest on the round trip. -/

open Sys2Proof

namespace Sys2Proof.Proofs

/-- Settles O7: format by format, the decoder reads each operand from its own bytes. -/
theorem decodeOfEncode : Obligations.DecodeOfEncode := by
  unfold Obligations.DecodeOfEncode
  exact fun _ hwf rest => decode_encode hwf rest

/-- Settles O8: format by format, what the builder answers was read from its own encoding. -/
theorem encodeOfDecode : Obligations.EncodeOfDecode := by
  unfold Obligations.EncodeOfDecode
  exact fun _ _ h => encode_decode h

/-- Settles O14: a cut instruction cannot decode to another one, by the round trip, nor be
misencoded. -/
theorem cutInstructionIsTruncated : Obligations.CutInstructionIsTruncated := by
  unfold Obligations.CutInstructionIsTruncated
  exact ⟨fun _ hwf _ hn => decode_take_encode hwf hn, fun _ _ h => decode_eq_truncated h⟩

/-- Settles O11: format by format. -/
theorem builtRecordInvariants : Obligations.BuiltRecordInvariants := by
  unfold Obligations.BuiltRecordInvariants
  intro i hwf
  obtain ⟨hone, hmem, hop0, hop1, hloc, hbyte⟩ := record_invariants hwf
  have hmem' : ∀ m m', i.record.op0 = .mem m → i.record.op1 ≠ some (.mem m') := fun m m' h0 h1 => by
    obtain ⟨x, hx⟩ | ⟨v, hv⟩ := hmem m (.mem m') h0 h1
    · cases hx
    · cases hv
  exact ⟨(record_size i).trans (encode_length i).1.symm, hone, hmem', hop0, hop1, hloc, hbyte⟩

end Sys2Proof.Proofs
end

section
/-! SUPPORT. The fetch window and the image in memory (10_state.md R30, R39, 20_memory.md R66). -/

namespace Sys2Proof.Machine

/-- The values of a function that has one exactly below `m`, read off in order. -/
theorem filterMap_range {α : Type} {f : Nat → Option α} {m : Nat}
    (hf : ∀ k, (f k).isSome = true ↔ k < m) (n : Nat) :
    ((List.range n).filterMap f).length = min n m ∧
      ∀ k < n, ((List.range n).filterMap f)[k]? = f k := by
  induction n with
  | zero => simp
  | succ n ih =>
    obtain ⟨hlen, hget⟩ := ih
    have hlast := hf n
    rw [List.range_succ, List.filterMap_append]
    cases hn : f n with
    | none =>
      have hmn : m ≤ n := by simpa [hn] using hlast
      refine ⟨by simp [hn, hlen, hmn, Nat.le_succ_of_le], fun k hk => ?_⟩
      simp only [List.filterMap_cons_none hn, List.filterMap_nil, List.append_nil]
      rcases Nat.lt_succ_iff_lt_or_eq.1 hk with hlt | rfl
      · exact hget k hlt
      · rw [hn, List.getElem?_eq_none (by omega)]
    | some b =>
      have hmn : n < m := by simpa [hn] using hlast
      rw [List.filterMap_cons_some hn, List.filterMap_nil]
      refine ⟨by simp [hlen]; omega, fun k hk => ?_⟩
      rcases Nat.lt_succ_iff_lt_or_eq.1 hk with hlt | rfl
      · rw [List.getElem?_append_left (by omega), hget k hlt]
      · rw [List.getElem?_append_right (by omega), hn]
        simp [hlen, hmn.le]

theorem codeByte_isSome_iff (s : State) (i : Nat) :
    (codeByte s i).isSome = true ↔ i < s.codeLen := by
  unfold codeByte
  split
  · next h =>
    have hi : i < s.code.length := h
    split <;> simp [h, hi]
  · next h => simp [h]

theorem codeByte_of_image {s : State} {i : Nat} (h : s.params.codeInDataMemory = false) :
    codeByte s i = s.code[i]? := by
  unfold codeByte
  rw [h, if_neg Bool.false_ne_true, ite_eq_left_iff]
  exact fun hi => (List.getElem?_eq_none (Nat.le_of_not_lt hi)).symm

theorem codeByte_of_memory {s : State} {i : Nat} (h : s.params.codeInDataMemory = true) :
    codeByte s i = if i < s.codeLen then some (Memory.read s.mem i) else none := by
  unfold codeByte
  rw [if_pos h]

theorem fetchWindow_bytes (s : State) :
    (fetchWindow s).length = min 6 (s.codeLen - s.ip.toNat) ∧
      ∀ k < 6, (fetchWindow s)[k]? = codeByte s (s.ip.toNat + k) :=
  filterMap_range (fun k => by rw [codeByte_isSome_iff]; omega) 6

/-- An instruction at `ip` lies inside the image (10_state.md R39). -/
theorem size_le_of_decode {s : State} {i : Instr} (h : decode (fetchWindow s) = .ok i) :
    s.ip.toNat + i.size ≤ s.codeLen := by
  have hlen := (encode_decode h).2.length_le
  have hsize := encode_length i
  rw [hsize.1, (fetchWindow_bytes s).1] at hlen
  have := hsize.2.1
  omega

namespace Memory

/-- Copying an image writes its bytes one after the other and no other byte (20_memory.md R66). -/
theorem read_copyImage {bs : List Byte} {m : Memory} {k : Nat} (hm : wf m = true)
    (hk : k + bs.length ≤ dataMemorySize) (p : Nat) :
    read (copyImage m k bs) p = if p < k then read m p else (bs[p - k]?).getD (read m p) := by
  induction bs generalizing m k with
  | nil => simp [copyImage]
  | cons b bs ih =>
    rw [List.length_cons] at hk
    rw [copyImage, ih (write_wf b hm (by omega)) (by omega)]
    rcases Nat.lt_trichotomy p k with hpk | rfl | hpk
    · rw [if_pos (by omega), if_pos hpk, read_write_other _ _ (by omega)]
    · simp [read_write_same hm]
    · obtain ⟨q, rfl⟩ : ∃ q, p = k + 1 + q := ⟨p - (k + 1), by omega⟩
      have hq : k + 1 + q - k = q + 1 := by omega
      rw [if_neg (by omega), if_neg (by omega), read_write_other _ _ (by omega), hq,
        Nat.add_sub_cancel_left, List.getElem?_cons_succ]

end Memory

theorem start_codeLen (code : List Byte) (params : Params) (initMem : Memory) :
    (State.start code params initMem).codeLen = code.length := rfl

theorem start_mem_of_copied {code : List Byte} {params : Params} {initMem : Memory}
    (h : params.codeInDataMemory = true) :
    (State.start code params initMem).mem = copyImage initMem 0 code :=
  if_pos h

theorem start_mem_wf {code : List Byte} {params : Params} {initMem : Memory}
    (hlen : code.length ≤ 65535) (hwf : Memory.wf initMem = true) :
    Memory.wf (State.start code params initMem).mem = true := by
  simp only [State.start]
  split
  · exact Memory.copyImage_wf code 0 hwf (by simp only [dataMemorySize]; omega)
  · exact hwf

end Sys2Proof.Machine
end

section
/-! The obligations on the fetch and on the start of a run. -/

open Sys2Proof Sys2Proof.Machine

namespace Sys2Proof.Proofs

/-- Settles O42: `code(ip + k)` has a value exactly below CODE_LEN. -/
theorem fetchWindowBytes : Obligations.FetchWindowBytes := by
  unfold Obligations.FetchWindowBytes
  intro s
  obtain ⟨hlen, hget⟩ := fetchWindow_bytes s
  refine ⟨hlen, fun k hk hin => ⟨fun h => ?_, fun h => ?_⟩⟩
  · rw [hget k hk, codeByte_of_image h]
  · rw [hget k hk, codeByte_of_memory h, if_pos hin]

/-- Settles O16: the copied image reads back, so a first fetch from memory reads the image. -/
theorem startLoadsTheImage : Obligations.StartLoadsTheImage := by
  unfold Obligations.StartLoadsTheImage
  intro code params initMem hwf hlen
  have hcopied : params.codeInDataMemory = true → ∀ p,
      Memory.read (State.start code params initMem).mem p =
        (code[p]?).getD (Memory.read initMem p) := fun h p => by
    rw [start_mem_of_copied h, Memory.read_copyImage hwf (by simp only [dataMemorySize]; omega)]
    simp
  refine ⟨hcopied, fun i => ?_⟩
  cases h : params.codeInDataMemory with
  | false => exact codeByte_of_image h
  | true =>
    rw [codeByte_of_memory h, hcopied h, start_codeLen]
    by_cases hi : i < code.length
    · rw [if_pos hi, List.getElem?_eq_getElem hi, Option.getD_some]
    · rw [if_neg hi, List.getElem?_eq_none (Nat.le_of_not_lt hi)]

/-- Settles O55: the image is inside data memory, and the run is going exactly when it is not
empty. -/
theorem startMeetsTheInvariant : Obligations.StartMeetsTheInvariant := by
  unfold Obligations.StartMeetsTheInvariant
  intro code params initMem hlen hwf
  refine ⟨start_mem_wf hlen hwf, hlen, BitVec.zero_and, ?_⟩
  cases code with
  | nil => exact Nat.le_refl 0
  | cons b code => exact Nat.succ_pos _

/-- Settles O54: the empty image ends at once. -/
theorem resetMeetsTheInvariant : Obligations.ResetMeetsTheInvariant := by
  unfold Obligations.ResetMeetsTheInvariant
  exact ⟨reset_mem_wf, Nat.zero_le _, rfl, Nat.le_refl 0⟩

end Sys2Proof.Proofs
end

section
/-! SUPPORT. What a destination write leaves unchanged, and what is read back from it
(10_state.md R25, 20_memory.md R53). -/

open Sys2Proof.Statements

namespace Sys2Proof.Machine

@[simp] theorem reg_setReg_same (s : State) (n : RegName) (v : Word) : (s.setReg n v).reg n = v :=
  Regs.get_set_same ..

/-- A slice reads back the bits that were written to it. -/
theorem readSlice_writeSlice (r : Slice) (v : Word) (s : State) :
    readSlice r (writeSlice r v s) = truncW r.width v := by
  cases r <;> simp [readSlice, writeSlice, Slice.width, truncW]

/-- A low byte write keeps the high byte. -/
theorem hiByte_writeSlice_low (n : HalvedReg) (v : Word) (s : State) :
    hiByte ((writeSlice (.low n) v s).reg n.name) = hiByte (s.reg n.name) := by
  simp [writeSlice]

/-- A high byte write keeps the low byte. -/
theorem loByte_writeSlice_high (n : HalvedReg) (v : Word) (s : State) :
    loByte ((writeSlice (.high n) v s).reg n.name) = loByte (s.reg n.name) := by
  simp [writeSlice]

theorem writeSlice_mem (r : Slice) (v : Word) (s : State) : (writeSlice r v s).mem = s.mem := by
  rw [writeSlice_spec]

/-- A store changes the stored bytes alone. -/
theorem writeLoc_mem_read_other {w : Width} {m : MemOperand} {v : Word} {s u : State} {a : Nat}
    (h : writeLoc w (.mem m) v s = some u) (ha : a ∉ storedBytes w m s) :
    Memory.read u.mem a = Memory.read s.mem a := by
  rw [writeLoc] at h
  cases w with
  | byte =>
    cases h
    exact Memory.read_write_other _ _ (by simpa [storedBytes] using ha)
  | word =>
    cases hk : hiIndex s.params.hiByteAtFFFF (effectiveAddress m s) with
    | none => simp [memWrite, hk] at h
    | some k =>
      simp only [memWrite, hk, Option.some.injEq] at h
      subst h
      simp only [storedBytes, hk, Option.toList_some, List.mem_cons, List.not_mem_nil, or_false,
        not_or] at ha
      obtain ⟨hlo, hhi⟩ := ha
      exact (Memory.read_write_other _ _ hhi).trans (Memory.read_write_other _ _ hlo)

theorem unchangedBut_refl (w : Width) (dst : Option Loc) (s : State) : unchangedBut w dst s s :=
  ⟨fun _ _ => rfl, fun _ _ => rfl, fun _ _ => rfl, fun _ _ => rfl, rfl, rfl, rfl⟩

/-- The frame speaks of the registers, memory, the image, the parameters and the listing alone. -/
theorem unchangedBut_congr {w : Width} {dst : Option Loc} {s u t : State}
    (h : unchangedBut w dst s u) (hregs : t.regs = u.regs) (hmem : t.mem = u.mem)
    (hcode : t.code = u.code) (hparams : t.params = u.params) (hlisting : t.listing = u.listing) :
    unchangedBut w dst s t := by
  unfold unchangedBut State.reg at h ⊢
  rwa [hregs, hmem, hcode, hparams, hlisting]

theorem writeLoc_unchangedBut {w : Width} {dst : Loc} {v : Word} {s u : State}
    (h : writeLoc w dst v s = some u) : unchangedBut w (some dst) s u := by
  have hspec := (writeLoc_spec h).1
  refine ⟨fun n hn => ?_, fun n hn => ?_, fun n hn => ?_, fun a ha => ?_,
    hspec ▸ rfl, hspec ▸ rfl, hspec ▸ rfl⟩
  · by_contra hne
    obtain ⟨r, rfl, hr⟩ := writeLoc_changed_reg h hne
    exact hn r rfl hr.symm
  · cases hn; cases h; exact hiByte_writeSlice_low n v s
  · cases hn; cases h; exact loByte_writeSlice_high n v s
  · cases dst with
    | reg r => cases h; rw [writeSlice_mem]
    | mem m => exact writeLoc_mem_read_other h (ha m rfl)

/-! ## Frames of the shared operations -/

variable {i : Instr} {w : Width} {dst : Loc} {src : Operand} {s t : State}

theorem flagUpdate_otherFlagsUnchanged {u : State} (r : Word) (h : u.flags = s.flags) :
    otherFlagsUnchanged s (flagUpdate w r u) := fun k h6 h7 => by
  rw [flagUpdate_flags, withZfSf_other _ _ _ h6 h7, h]

theorem moveOp_frame (h : moveOp i w dst src s = .next t) :
    unchangedBut w (some dst) s t ∧ t.flags = s.flags ∧ statusKept i s t := by
  obtain rfl | ⟨v, u, -, hu, rfl⟩ := moveOp_cases h
  · exact ⟨unchangedBut_congr (unchangedBut_refl ..) rfl rfl rfl rfl rfl, rfl, .inr rfl⟩
  · obtain ⟨hflags, -, hrun⟩ := writeLoc_frame hu
    exact ⟨unchangedBut_congr (writeLoc_unchangedBut hu) rfl rfl rfl rfl rfl, hflags, .inl hrun⟩

theorem updateOp_frame {a : Arith} (h : updateOp a i w dst src s = .next t) :
    unchangedBut w (some dst) s t ∧ otherFlagsUnchanged s t ∧ statusKept i s t := by
  obtain rfl | ⟨d, v, u, -, -, hu, rfl⟩ := updateOp_cases h
  · exact ⟨unchangedBut_congr (unchangedBut_refl ..) rfl rfl rfl rfl rfl, fun _ _ _ => rfl,
      .inr rfl⟩
  · obtain ⟨hflags, -, hrun⟩ := writeLoc_frame hu
    exact ⟨unchangedBut_congr (writeLoc_unchangedBut hu) rfl rfl rfl rfl rfl,
      flagUpdate_otherFlagsUnchanged _ hflags, .inl hrun⟩

theorem compareOp_frame (h : compareOp i w dst src s = .next t) :
    unchangedBut w none s t ∧ otherFlagsUnchanged s t ∧ statusKept i s t := by
  obtain rfl | ⟨d, v, -, -, rfl⟩ := compareOp_cases h
  · exact ⟨unchangedBut_congr (unchangedBut_refl ..) rfl rfl rfl rfl rfl, fun _ _ _ => rfl,
      .inr rfl⟩
  · exact ⟨unchangedBut_congr (unchangedBut_refl ..) rfl rfl rfl rfl rfl,
      flagUpdate_otherFlagsUnchanged _ rfl, .inl rfl⟩

/-! ## Results of the shared operations -/

theorem readable_of_no_fault {k : DataKind} (hrec : i.record = dataRecord k w i.size dst src)
    (hone : OneInMemory dst src) (hw : wordAtFFFF i s = false) :
    (∃ d, readOp w dst.operand s = some d) ∧ ∃ v, readOp w src s = some v := by
  have hread := mt (wordAtFFFF_iff_unreadable hrec hone s).2 (Bool.eq_false_iff.1 hw)
  rw [not_or] at hread
  exact ⟨Option.ne_none_iff_exists'.1 hread.1, Option.ne_none_iff_exists'.1 hread.2⟩

theorem writable_of_readable {d : Word} (hd : readOp w dst.operand s = some d) (v : Word) :
    ∃ u, writeLoc w dst v s = some u :=
  Option.ne_none_iff_exists'.1 fun h => by simp [(writeLoc_eq_none_iff ..).1 h] at hd

/-- After a destination write `ip` is still IP_start (10_state.md R28). -/
theorem advance_eq_setIp {u : State} (h : u.ip = s.ip) :
    advance i u = u.setIp (s.ip + BitVec.ofNat 16 i.size) := by
  rw [advance, h]

theorem movCompletes_of_moveOp (hrec : i.record = dataRecord .mov w i.size dst src)
    (hone : OneInMemory dst src) (hexec : exec i s = moveOp i w dst src s) :
    movCompletes i w dst src s := by
  intro hw
  obtain ⟨⟨d, hd⟩, v, hv⟩ := readable_of_no_fault hrec hone hw
  obtain ⟨u, hu⟩ := writable_of_readable hd v
  refine ⟨v, u, hv, hu, ?_⟩
  simp only [hexec, moveOp, hv, hu, advance_eq_setIp (writeLoc_frame hu).2.1]

theorem updateCompletes_of_updateOp {a : Arith} {f : Word → Word → Word}
    (hf : ∀ d v, arithResult a w d v = truncW w (f d v))
    (hrec : i.record = dataRecord (.arith a) w i.size dst src) (hone : OneInMemory dst src)
    (hexec : exec i s = updateOp a i w dst src s) : updateCompletes f i w dst src s := by
  intro hw
  obtain ⟨⟨d, hd⟩, v, hv⟩ := readable_of_no_fault hrec hone hw
  obtain ⟨u, hu⟩ := writable_of_readable hd (truncW w (f d v))
  refine ⟨d, v, u, hd, hv, hu, ?_⟩
  have hip : (flagUpdate w (truncW w (f d v)) u).ip = s.ip := (writeLoc_frame hu).2.1
  simp only [hexec, updateOp, hd, hv, hf, hu, advance_eq_setIp hip]

theorem compareCompletes_of_compareOp
    (hrec : i.record = dataRecord (.arith .cmp) w i.size dst src) (hone : OneInMemory dst src)
    (hexec : exec i s = compareOp i w dst src s) : compareCompletes i w dst src s := by
  intro hw
  obtain ⟨⟨d, hd⟩, v, hv⟩ := readable_of_no_fault hrec hone hw
  refine ⟨d, v, hd, hv, ?_⟩
  simp only [hexec, compareOp, hd, hv]
  rfl

end Sys2Proof.Machine
end

section
/-! The obligations on the results and the frames of the instructions. -/

open Sys2Proof Sys2Proof.Machine Sys2Proof.Statements

namespace Sys2Proof.Proofs

/-- Settles O18: the three kinds of slice. -/
theorem sliceWrite : Obligations.SliceWrite := by
  unfold Obligations.SliceWrite
  refine fun s v => ⟨fun n => reg_setReg_same s n v, fun n => ?_, fun n => ?_,
    fun r m hm => writeSlice_reg_other r v s hm, fun r => writeSlice_spec r v s⟩
  · rw [writeSlice, reg_setReg_same, wordOfBytes_toNat, hiByte_toNat, loByte_toNat]
  · rw [writeSlice, reg_setReg_same, wordOfBytes_toNat, loByte_toNat, loByte_toNat]

/-- Settles O26: every form of mov is `moveOp` on the operands of its record. -/
theorem movResult : Obligations.MovResult := by
  unfold Obligations.MovResult
  exact fun s =>
    ⟨fun dir w reg rm => movCompletes_of_moveOp rfl (.rmReg dir reg rm) rfl,
      fun m imm => movCompletes_of_moveOp rfl (.srcImm ..) rfl,
      fun reg imm => movCompletes_of_moveOp rfl (.srcImm ..) rfl,
      fun w addr => movCompletes_of_moveOp rfl (.dstReg ..) rfl,
      fun w addr => movCompletes_of_moveOp rfl (.srcReg ..) rfl⟩

/-- Settles O27: every form of add is `updateOp` on the operands of its record. -/
theorem addResult : Obligations.AddResult := by
  unfold Obligations.AddResult
  exact fun s =>
    ⟨fun dir w reg rm => updateCompletes_of_updateOp (fun _ _ => rfl) rfl (.rmReg dir reg rm) rfl,
      fun rm imm => updateCompletes_of_updateOp (fun _ _ => rfl) rfl (.srcImm ..) rfl,
      fun imm => updateCompletes_of_updateOp (fun _ _ => rfl) rfl (.srcImm ..) rfl⟩

/-- Settles O28: every form of sub is `updateOp` on the operands of its record. -/
theorem subResult : Obligations.SubResult := by
  unfold Obligations.SubResult
  exact fun s =>
    ⟨fun dir w reg rm => updateCompletes_of_updateOp (fun _ _ => rfl) rfl (.rmReg dir reg rm) rfl,
      fun rm imm => updateCompletes_of_updateOp (fun _ _ => rfl) rfl (.srcImm ..) rfl,
      fun imm => updateCompletes_of_updateOp (fun _ _ => rfl) rfl (.srcImm ..) rfl⟩

/-- Settles O29: every form of cmp is `compareOp` on the operands of its record. -/
theorem cmpResult : Obligations.CmpResult := by
  unfold Obligations.CmpResult
  exact fun s =>
    ⟨fun dir w reg rm => compareCompletes_of_compareOp rfl (.rmReg dir reg rm) rfl,
      fun rm imm => compareCompletes_of_compareOp rfl (.srcImm ..) rfl,
      fun imm => compareCompletes_of_compareOp rfl (.srcImm ..) rfl⟩

/-- Settles O34: the frame of `moveOp`. -/
theorem movFrame : Obligations.MovFrame := by
  unfold Obligations.MovFrame
  exact fun _ _ =>
    ⟨fun dir _ reg rm h => moveOp_frame (src := rmRegSrc dir reg rm) h,
      fun _ imm h => moveOp_frame (src := .imm imm.value) h,
      fun _ imm h => moveOp_frame (src := .imm imm.value) h,
      fun _ addr h => moveOp_frame (src := .mem (.direct addr)) h,
      fun w _ h => moveOp_frame (src := .reg (accumulator w)) h⟩

/-- Settles O35: the frame of `updateOp`. -/
theorem addFrame : Obligations.AddFrame := by
  unfold Obligations.AddFrame
  exact fun _ _ =>
    ⟨fun dir _ reg rm h => updateOp_frame (a := .add) (src := rmRegSrc dir reg rm) h,
      fun _ imm h => updateOp_frame (a := .add) (src := .imm imm.value) h,
      fun imm h => updateOp_frame (a := .add) (src := .imm imm.value) h⟩

/-- Settles O36: the frame of `updateOp`. -/
theorem subFrame : Obligations.SubFrame := by
  unfold Obligations.SubFrame
  exact fun _ _ =>
    ⟨fun dir _ reg rm h => updateOp_frame (a := .sub) (src := rmRegSrc dir reg rm) h,
      fun _ imm h => updateOp_frame (a := .sub) (src := .imm imm.value) h,
      fun imm h => updateOp_frame (a := .sub) (src := .imm imm.value) h⟩

/-- Settles O37: the frame of `compareOp`. -/
theorem cmpFrame : Obligations.CmpFrame := by
  unfold Obligations.CmpFrame
  exact fun _ _ =>
    ⟨fun dir _ reg rm h =>
        compareOp_frame (dst := rmRegDst dir reg rm) (src := rmRegSrc dir reg rm) h,
      fun rm imm h => compareOp_frame (dst := rm.loc) (src := .imm imm.value) h,
      fun imm h =>
        compareOp_frame (dst := .reg (accumulator imm.width)) (src := .imm imm.value) h⟩

/-- Settles O38: a jump raises no fault and is taken or falls through; the other cases of
`Completed` have two operands. -/
theorem jumpFrame : Obligations.JumpFrame := by
  unfold Obligations.JumpFrame
  intro j d s t h
  have hrec := jumpInstr_record j d
  cases exec_answer h with
  | faulted hw ht => simp [wordAtFFFF_jump hrec] at hw
  | completed hw hc =>
    cases hc with
    | moved w dst src v u hrec' | updated a w dst src d v u ha hrec'
      | compared w dst src d v hrec' =>
      cases hrec.symm.trans hrec'
    | jumped d hi hz ht => rw [ht]; rfl
    | fellThrough j d hrec hseq ht => rw [ht]; rfl

end Sys2Proof.Proofs
end

section
/-! SUPPORT. The effect of a completed step on memory, the flags word and the run status, and the
step as an equation (10_state.md R44, 40_decoder.md R132, R133). -/

open Sys2Proof.Statements

namespace Sys2Proof.Machine

@[simp] theorem settle_mem (s : State) : (settle s).mem = s.mem := by
  unfold settle; split <;> rfl
@[simp] theorem settle_code (s : State) : (settle s).code = s.code := by
  unfold settle; split <;> rfl
@[simp] theorem settle_params (s : State) : (settle s).params = s.params := by
  unfold settle; split <;> rfl
@[simp] theorem settle_listing (s : State) : (settle s).listing = s.listing := by
  unfold settle; split <;> rfl

/-- A settled step is the state before with the run status of 10_state.md R44. -/
theorem settle_eq {s : State} (h : s.runState = .running) :
    settle s = { s with runState := if s.codeLen ≤ s.ip.toNat then .ended else .running } := by
  unfold settle
  split
  · rfl
  · rw [← h]

/-- A settled run status agrees with `ip` (10_state.md R44). -/
theorem statusOk_settle {s : State} (h : s.runState = .running) : statusOk (settle s) := by
  unfold statusOk
  rw [settle_runState h, settle_ip, settle_codeLen]
  split
  · next hr =>
    by_contra hlt
    rw [if_pos (Nat.le_of_not_lt hlt)] at hr
    cases hr
  · next hr =>
    by_contra hle
    rw [if_neg hle] at hr
    cases hr
  · next r hr => split at hr <;> cases hr

variable {i : Instr} {s t u : State}

/-- A completed instruction's effect without the values its operands read. -/
theorem Completed.effect (h : Completed i s t) : Effect i s t := by
  cases h with
  | moved w dst src v u hrec hv hu ht => exact .moved w dst v u hu ht
  | updated a w dst src d v u ha hrec hd hv hu ht => exact .updated w dst _ u hu ht
  | compared w dst src d v hrec hd hv ht => exact .compared w _ ht
  | jumped d hi hz ht => exact .jumped _ ht
  | fellThrough j d hrec hseq ht => exact .jumped _ ht

/-- The instruction part of a step in either mode has an instruction's effect. -/
theorem Body.effect (h : Body i s u) : Effect i s u := by
  cases h with
  | disassembled hm hu => exact .jumped _ hu
  | executed hm hw hc => exact hc.effect

/-- Every instruction keeps memory's canonical form. -/
theorem Effect.mem_wf (h : Effect i s t) (hwf : Memory.wf s.mem = true) :
    Memory.wf t.mem = true := by
  cases h with
  | faulted h | compared w r h | jumped target h => rw [h]; exact hwf
  | moved w dst v u hu h | updated w dst r u hu h => rw [h]; exact (writeLoc_spec hu).2 hwf

/-- A flag update sets none of the other bits (10_state.md R31). -/
theorem flagsOk_withZfSf {f : Word} (z n : Bool) (h : flagsOk f) : flagsOk (withZfSf f z n) := by
  unfold flagsOk at h ⊢
  unfold withZfSf
  rw [h]
  cases z <;> cases n <;> decide

/-- Every instruction leaves the other flags 0. -/
theorem Effect.flagsOk (h : Effect i s t) (hf : flagsOk s.flags) : Machine.flagsOk t.flags := by
  cases h with
  | faulted h | jumped target h => rw [h]; exact hf
  | moved w dst v u hu h => rw [h, advance_flags, (writeLoc_frame hu).1]; exact hf
  | updated w dst r u hu h =>
    rw [h, advance_flags, flagUpdate_flags, (writeLoc_frame hu).1]
    exact flagsOk_withZfSf _ _ hf
  | compared w r h => rw [h]; exact flagsOk_withZfSf _ _ hf

/-- An address no store reaches: above 0x10000, or 0x10000 unless the second byte of a word at
0xFFFF is there (20_memory.md R50, R51). -/
def neverStored (s : State) (a : Nat) : Prop :=
  0x10000 < a ∨ (a = 0x10000 ∧ s.params.hiByteAtFFFF ≠ .linear)

theorem not_mem_storedBytes {a : Nat} (ha : neverStored s a) (w : Width) (m : MemOperand) :
    a ∉ storedBytes w m s := by
  have hlt : (effectiveAddress m s).toNat < 2 ^ 16 := (effectiveAddress m s).isLt
  have hlo : 0x10000 ≤ a := by
    obtain ha | ⟨ha, -⟩ := ha <;> omega
  have hne : a ≠ byteIndex (effectiveAddress m s) := by rw [byteIndex_eq]; omega
  cases w with
  | byte => simpa [storedBytes] using hne
  | word =>
    simp only [storedBytes, List.mem_cons, Option.mem_toList, hne, false_or]
    intro hhi
    unfold hiIndex at hhi
    split at hhi
    · cases hp : s.params.hiByteAtFFFF with
      | linear =>
        simp only [hp, Option.some.injEq] at hhi
        simp only [neverStored, hp, ne_eq, not_true_eq_false, and_false, or_false] at ha
        omega
      | wrap16 => simp only [hp, Option.some.injEq] at hhi; omega
      | fault => simp [hp] at hhi
    · next hea =>
      simp only [byteIndex_eq, Option.some.injEq] at hhi
      have hffff : (effectiveAddress m s).toNat ≠ 0xFFFF := fun h =>
        hea (BitVec.eq_of_toNat_eq h)
      omega

/-- No instruction writes an address that no store reaches. -/
theorem Effect.mem_read_neverStored (h : Effect i s t) {a : Nat} (ha : neverStored s a) :
    Memory.read t.mem a = Memory.read s.mem a := by
  cases h with
  | faulted h | compared w r h | jumped target h => rw [h]; rfl
  | moved w dst v u hu h | updated w dst v u hu h =>
    obtain ⟨-, -, -, hmem, -⟩ := writeLoc_unchangedBut hu
    rw [h]
    exact hmem a fun m _ => not_mem_storedBytes ha w m

/-! ## The step as an equation -/

theorem step_eq (hrun : s.runState = .running) (hlen : s.codeLen ≤ 65535) :
    step s = runningStep s := by
  simp only [step, takeStep, hrun]
  exact if_pos hlen

theorem step_of_fault {f : DecodeFault} (hrun : s.runState = .running) (hlen : s.codeLen ≤ 65535)
    (hf : decode (fetchWindow s) = .fault f) :
    step s = .next (raise (decodeFaultRecord s.ip f) s) := by
  simp only [step_eq hrun hlen, runningStep, hf]

theorem step_of_disassemble (hrun : s.runState = .running) (hlen : s.codeLen ≤ 65535)
    (hm : s.params.mode = .disassemble) (hi : decode (fetchWindow s) = .ok i) :
    step s = .next (complete i (advance i s)) := by
  simp only [step_eq hrun hlen, runningStep, hi, hm, disassembleStep]

theorem step_of_execute (hrun : s.runState = .running) (hlen : s.codeLen ≤ 65535)
    (hm : s.params.mode = .execute) (hi : decode (fetchWindow s) = .ok i)
    (hu : exec i s = .next u) : step s = .next (complete i u) := by
  simp only [step_eq hrun hlen, runningStep, hi, hm, executeStep, hu]

/-- In `Running` on an image that is not too long a step is taken: no bytes and no instruction are
refused. -/
theorem exists_step (hrun : s.runState = .running) (hlen : s.codeLen ≤ 65535) :
    ∃ t, step s = .next t := by
  cases h : decode (fetchWindow s) with
  | fault f => exact ⟨_, step_of_fault hrun hlen h⟩
  | ok i =>
    cases hm : s.params.mode with
    | disassemble => exact ⟨_, step_of_disassemble hrun hlen hm h⟩
    | execute =>
      obtain ⟨u, hu⟩ := exec_next i s
      exact ⟨_, step_of_execute hrun hlen hm h hu⟩

/-- A step writes neither the image nor the parameters, and leaves every address that no store
reaches. -/
theorem StepOutcome.fixed (h : StepOutcome s t) :
    t.code = s.code ∧ t.params = s.params ∧
      ∀ a, neverStored s a → Memory.read t.mem a = Memory.read s.mem a := by
  cases h with
  | decodeFault f hf ht | wordFault i hi hm hw ht => rw [ht]; exact ⟨rfl, rfl, fun _ _ => rfl⟩
  | completed i u hi hb hu ht =>
    obtain ⟨hcode, hparams, -⟩ := hb.effect.run_fixed
    refine ⟨?_, ?_, fun a ha => ?_⟩
    · rw [ht, settle_code, emit_code, hcode]
    · rw [ht, settle_params, emit_params, hparams]
    · rw [ht, settle_mem, emit_mem, hb.effect.mem_read_neverStored ha]

theorem decodeFaultRecord_ipStart (ip : Word) (f : DecodeFault) :
    (decodeFaultRecord ip f).ipStart = ip := by
  cases f <;> rfl

/-- `ip` moves inside the image without wrap-around: an instruction that was decoded ends inside
it. -/
theorem advance_ip_toNat (hlen : s.codeLen ≤ 65535) (hi : decode (fetchWindow s) = .ok i) :
    (advance i s).ip.toNat = s.ip.toNat + i.size := by
  have hle := size_le_of_decode hi
  rw [advance_ip, BitVec.toNat_add, BitVec.toNat_ofNat]
  omega

end Sys2Proof.Machine
end

section
/-! The obligations on the step. -/

open Sys2Proof Sys2Proof.Machine Sys2Proof.Statements

namespace Sys2Proof.Proofs

/-- Settles O56: a fault writes the run status alone, naming the `ip` it keeps; a completed
instruction keeps memory and the flags in form, and the run status is settled on its `ip`. -/
theorem stepKeepsTheInvariant : Obligations.StepKeepsTheInvariant := by
  unfold Obligations.StepKeepsTheInvariant
  rintro s t ⟨hmem, hlen, hflags, -⟩ h
  cases step_outcome h with
  | decodeFault f hf ht =>
    subst ht
    exact ⟨hmem, hlen, hflags, decodeFaultRecord_ipStart s.ip f⟩
  | wordFault i hi hm hw ht =>
    subst ht
    exact ⟨hmem, hlen, hflags, rfl⟩
  | completed i u hi hb hu ht =>
    subst ht
    have hcode : u.codeLen = s.codeLen := congrArg List.length hb.effect.run_fixed.1
    refine ⟨?_, ?_, ?_, statusOk_settle hu⟩
    · rw [settle_mem]; exact hb.effect.mem_wf hmem
    · rw [settle_codeLen]; exact hcode.trans_le hlen
    · rw [settle_flags]; exact hb.effect.flagsOk hflags

/-- Settles O57: a decoded instruction ends inside the image, so `ip` and the listed lengths grow by
its size alike, and a run that ends does so at the image's end. -/
theorem disassemblyCoversTheImage : Obligations.DisassemblyCoversTheImage := by
  unfold Obligations.DisassemblyCoversTheImage
  intro s t hm hlisted h
  obtain ⟨-, hlen, -⟩ := step_cases h
  cases step_outcome h with
  | decodeFault f hf ht => subst ht; exact ⟨hm, hlisted, nofun⟩
  | wordFault i hi hm' hw ht => simp [hm] at hm'
  | completed i u hi hb hu ht =>
    cases hb with
    | executed hm' hw hc => simp [hm] at hm'
    | disassembled _ hadv =>
      subst hadv ht
      have hip := advance_ip_toNat hlen hi
      have hle := size_le_of_decode hi
      have hsum : (settle (emit i.record (advance i s))).listedBytes =
          (settle (emit i.record (advance i s))).ip.toNat := by
        rw [settle_ip, emit_ip, hip, ← hlisted]
        simp [State.listedBytes, record_size, Nat.add_comm]
      refine ⟨by simpa using hm, hsum, fun hended => ?_⟩
      rw [settle_runState (s := emit i.record (advance i s)) hu] at hended
      split at hended
      · next hout =>
        rw [hsum, settle_codeLen, settle_ip]
        exact Nat.le_antisymm (hip.trans_le hle) hout
      · cases hended

/-- Settles O39: the end of an Execute-mode step adds the record and settles the run status. -/
theorem stepRunsTheDecodedInstruction : Obligations.StepRunsTheDecodedInstruction := by
  unfold Obligations.StepRunsTheDecodedInstruction
  intro s t i hrun hlen hm hi hexec
  rw [step_of_execute hrun hlen hm hi hexec]
  refine ⟨fun r hr => ?_, fun hr => ?_⟩
  · simp only [complete, hr]
  · rw [complete_of_running i hr, settle_eq (s := emit i.record t) hr]
    rfl

/-- Settles O40: the same, after `ip` has moved by the size. -/
theorem disassembleStepOnlyAdvances : Obligations.DisassembleStepOnlyAdvances := by
  unfold Obligations.DisassembleStepOnlyAdvances
  intro s i hrun hlen hm hi
  rw [step_of_disassemble hrun hlen hm hi, complete_of_running i (t := advance i s) hrun,
    settle_eq (s := emit i.record (advance i s)) hrun]
  rfl

/-- Settles O41: a decode fault is raised with its record. -/
theorem decodeFaultStopsTheRun : Obligations.DecodeFaultStopsTheRun := by
  unfold Obligations.DecodeFaultStopsTheRun
  exact fun s hrun hlen => ⟨fun _ h => step_of_fault hrun hlen h,
    fun _ _ h => step_of_fault hrun hlen h, fun _ h => step_of_fault hrun hlen h⟩

/-- Settles O43: the run status and the image's length decide whether a step is taken. -/
theorem stepTakenExactlyInRunning : Obligations.StepTakenExactlyInRunning := by
  unfold Obligations.StepTakenExactlyInRunning
  refine fun s => ⟨⟨fun ⟨t, h⟩ => ?_, fun ⟨hrun, hlen⟩ => exists_step hrun hlen⟩,
    fun h => ?_, fun r h => ?_⟩
  · obtain ⟨hrun, hlen, -⟩ := step_cases h
    exact ⟨hrun, hlen⟩
  · simp only [step, takeStep, h]
  · simp only [step, takeStep, h]

/-- Settles O53: the image's length is checked before the step. -/
theorem longImageIsRefused : Obligations.LongImageIsRefused := by
  unfold Obligations.LongImageIsRefused
  intro s hrun hlong
  simp only [step, takeStep, hrun]
  exact if_neg hlong.not_ge

/-- Settles O44: both kinds of fault are raised on the state before the step. -/
theorem faultsArePrecise : Obligations.FaultsArePrecise := by
  unfold Obligations.FaultsArePrecise
  intro s t r h hr
  cases step_outcome h with
  | decodeFault f hf ht | wordFault i hi hm hw ht => subst ht; cases hr; rfl
  | completed i u hi hb hu ht => exact absurd (ht ▸ hr) (completed_not_faulted hu r)

/-- Settles O45: a decode fault has read one or two bytes or the whole window, and `WordAtFFFF` the
whole instruction, which begins the window. -/
theorem faultRecordContents : Obligations.FaultRecordContents := by
  unfold Obligations.FaultRecordContents
  intro s t r h hr
  cases step_outcome h with
  | decodeFault f hf ht =>
    subst ht
    cases hr
    refine ⟨decodeFaultRecord_ipStart s.ip f, ?_⟩
    cases f with
    | unknownOpcode read => exact (misencoded_of_decode (by simp) hf).unknownOpcode_read
    | malformed d read => exact (misencoded_of_decode (by simp) hf).malformed_read
    | truncated read =>
      obtain ⟨rfl, hlen⟩ := decode_eq_truncated hf
      have hwindow := (fetchWindow_bytes s).1
      refine ⟨List.prefix_rfl, Nat.le_of_lt_succ hlen, rfl, ?_⟩
      omega
  | wordFault i hi hm hw ht =>
    subst ht
    cases hr
    exact ⟨rfl, (encode_decode hi).2, rfl, i, hi, rfl⟩
  | completed i u hi hb hu ht => exact absurd (ht ▸ hr) (completed_not_faulted hu r)

/-- Settles O51: no instruction stores there. -/
theorem highMemoryIsNeverWritten : Obligations.HighMemoryIsNeverWritten := by
  unfold Obligations.HighMemoryIsNeverWritten
  exact fun s t a h ha => (step_outcome h).fixed.2.2 a ha

/-- Settles O52: a fetch depends on the image, the parameters and, under CODE_IN_DATA_MEMORY, on
memory. -/
theorem storesAndFetch : Obligations.StoresAndFetch := by
  unfold Obligations.StoresAndFetch
  intro s t h
  obtain ⟨hcode, hparams, -⟩ := (step_outcome h).fixed
  refine ⟨hcode, hparams, fun hfalse i => ?_, fun htrue i => ?_⟩
  · rw [codeByte_of_image hfalse, codeByte_of_image (hparams ▸ hfalse), hcode]
  · rw [codeByte_of_memory (hparams ▸ htrue), State.codeLen, State.codeLen, hcode]

end Sys2Proof.Proofs
end

section
/-! SUPPORT. Truncation to the operation width and the results of the arithmetic as numbers
(00_scope.md R10, 42_arith.md R179). -/

open Sys2Proof.Statements

namespace Sys2Proof.Machine

@[simp] theorem truncW_toNat (w : Width) (v : Word) :
    (truncW w v).toNat = v.toNat % 2 ^ bits w := by
  cases w with
  | byte => rw [truncW, zext16_toNat, loByte_toNat]; rfl
  | word => exact (Nat.mod_eq_of_lt v.isLt).symm

theorem truncW_zero (w : Width) : truncW w 0 = 0 := by cases w <;> rfl

/-- A 32-bit value that is a signed word keeps its value in 16 bits (00_scope.md R10). -/
theorem toInt_setWidth_16 {x : BitVec 32} (hlo : -0x8000 ≤ x.toInt) (hhi : x.toInt < 0x8000) :
    (x.setWidth 16).toInt = x.toInt := by
  have hx : x.toNat < 2 ^ 32 := x.isLt
  rw [BitVec.toInt_eq_toNat_cond] at hlo hhi
  rw [BitVec.toInt_eq_toNat_cond, BitVec.toInt_eq_toNat_cond, BitVec.toNat_setWidth]
  split at hlo <;> split <;> omega

/-- A zero-extended value is not negative (30_encoding.md R78). -/
theorem toInt_setWidth_32 {n : Nat} (hn : n < 32) (v : BitVec n) :
    (v.setWidth 32).toInt = v.toNat := by
  rw [BitVec.toInt_setWidth, Int.bmod_eq_of_le]
  · omega
  · have hv : v.toNat < 2 ^ 31 := v.isLt.trans_le (Nat.pow_le_pow_right (by decide) (by omega))
    omega

@[simp] theorem loByte_zext16 (b : Byte) : loByte (zext16 b) = b := by
  apply BitVec.eq_of_toNat_eq
  rw [loByte_toNat, zext16_toNat]
  exact Nat.mod_eq_of_lt b.isLt

theorem byte_toInt_range (b : Byte) : -0x8000 ≤ b.toInt ∧ b.toInt + 2 < 0x8000 := by
  have hlo : -2 ^ 7 ≤ b.toInt := BitVec.le_toInt b
  have hhi : b.toInt < 2 ^ 7 := BitVec.toInt_lt
  omega

/-- A word's second byte follows the first below 0xFFFF (20_memory.md R57). -/
theorem hiIndex_of_ne {ea : Word} (h : ea ≠ 0xFFFF) (p : HiByteAtFFFF) :
    hiIndex p ea = some (ea.toNat + 1) := by
  simp only [hiIndex, if_neg h, byteIndex_eq]

/-- A slice read depends on the register file alone. -/
theorem readSlice_of_regs_eq {s t : State} (h : t.regs = s.regs) (r : Slice) :
    readSlice r t = readSlice r s := by
  cases r <;> simp only [readSlice, State.reg, h]

/-- An update whose operands are one register reads its old value twice (40_decoder.md R137). -/
theorem updateOp_same_register (a : Arith) (i : Instr) (dir : Dir) (r : Slice) (s : State) :
    ∃ t, updateOp a i r.width (rmRegDst dir r (.reg r)) (rmRegSrc dir r (.reg r)) s = .next t ∧
      readSlice r t = truncW r.width (arithResult a r.width (readSlice r s) (readSlice r s)) ∧
      t.flags = withZfSf s.flags
        (resultZero (arithResult a r.width (readSlice r s) (readSlice r s)))
        (resultSign r.width (arithResult a r.width (readSlice r s) (readSlice r s))) := by
  have hdst : rmRegDst dir r (.reg r) = .reg r := by cases dir <;> rfl
  have hsrc : rmRegSrc dir r (.reg r) = .reg r := by cases dir <;> rfl
  rw [hdst, hsrc]
  refine ⟨_, rfl, ?_, ?_⟩
  · rw [readSlice_of_regs_eq (advance_regs _ _), readSlice_of_regs_eq (flagUpdate_regs _ _ _),
      readSlice_writeSlice]
  · rw [advance_flags, flagUpdate_flags, writeSlice_spec]

theorem moveOp_word_register {i : Instr} {n : RegName} {src : Operand} {v : Word} {s : State}
    (hv : readOp .word src s = some v) :
    ∃ t, moveOp i .word (.reg (.word n)) src s = .next t ∧ t.reg n = v :=
  ⟨advance i (s.setReg n v), by simp only [moveOp, hv]; rfl, reg_setReg_same ..⟩

end Sys2Proof.Machine
end

section
/-! SUPPORT. No opcode of the classifier's table begins another (30_encoding.md R81). -/

open Sys2Proof.Statements

namespace Sys2Proof

/-- The top bits are a quotient, which is below `2 ^ k` already (40_decoder.md R111). -/
theorem top_eq_div (b : Byte) {k : Nat} (hk : k ≤ 8) : top b k = b.toNat / 2 ^ (8 - k) := by
  have hb : b.toNat < 2 ^ (8 - k) * 2 ^ k := by
    rw [← pow_add, Nat.sub_add_cancel hk]
    exact b.isLt
  rw [top, field_toNat, Nat.mod_eq_of_lt (Nat.div_lt_of_lt_mul hb)]

/-- The bits of no row begin the bits of a row of another width. -/
theorem opcodeTable_prefix_free : ∀ r ∈ opcodeTable, ∀ r' ∈ opcodeTable, r'.width ≤ r.width →
    r.value / 2 ^ (r.width - r'.width) = r'.value → r'.width = r.width := by
  decide

theorem exists_row_of_tableEntry {k v : Nat} (h : (tableEntry k v).isSome = true) :
    ∃ r ∈ opcodeTable, r.width = k ∧ r.value = v := by
  rw [tableEntry, Option.isSome_map, List.find?_isSome] at h
  simpa using h

/-- Two entries for one byte have one width, since the shorter one's bits begin the longer one's. -/
theorem tableEntry_width_unique {b : Byte} {k k' : Nat} (hle : k' ≤ k) (hk : k ≤ 8)
    (h : (tableEntry k (top b k)).isSome = true) (h' : (tableEntry k' (top b k')).isSome = true) :
    k' = k := by
  obtain ⟨r, hr, rfl, hv⟩ := exists_row_of_tableEntry h
  obtain ⟨r', hr', rfl, hv'⟩ := exists_row_of_tableEntry h'
  refine opcodeTable_prefix_free r hr r' hr' hle ?_
  rw [hv, hv', top_eq_div b hk, top_eq_div b (hle.trans hk), Nat.div_div_eq_div_mul, ← pow_add]
  congr 2
  omega

theorem classify_isSome (b : Byte) : (classify b).isSome = admittedFirstByte b := by
  have hnone := classify_eq_none_iff b
  cases h : classify b with
  | none => exact (hnone.1 h).symm
  | some form => simpa [h] using hnone

end Sys2Proof
end

section
/-! The obligations on the decoder's fields, the operands and the results of single instructions. -/

open Sys2Proof Sys2Proof.Machine Sys2Proof.Statements

namespace Sys2Proof.Proofs

/-- Settles O1: the top `k` bits are the quotient alone, since it is below `2 ^ k`. -/
theorem bitFieldExtractor : Obligations.BitFieldExtractor := by
  unfold Obligations.BitFieldExtractor
  exact ⟨fun b offset n _ _ => field_toNat b offset n, fun b _ _ hk => top_eq_div b hk⟩

/-- Settles O3: the bits of no row begin those of another, and the first bytes are those of
`classify_firstByte`. -/
theorem opcodeTableIsPrefixFree : Obligations.OpcodeTableIsPrefixFree := by
  unfold Obligations.OpcodeTableIsPrefixFree
  have hwidths : ∀ k ∈ [8, 7, 6, 5, 4], k ≤ 8 := by decide
  refine ⟨fun b k hk k' hk' h h' => ?_, classify_isSome, ?_⟩
  · obtain hle | hle := Nat.le_total k' k
    · exact (tableEntry_width_unique hle (hwidths k hk) h h').symm
    · exact tableEntry_width_unique hle (hwidths k' hk') h' h
  · simp only [classify_isSome]
    decide +kernel

/-- Settles O5: sixteen decoded words. -/
theorem exampleWordsDecode : Obligations.ExampleWordsDecode := by
  unfold Obligations.ExampleWordsDecode
  decide

/-- Settles O6: the bytes are the encodings of instructions that hold the word, which is decoded
back. -/
theorem streamFieldsLowByteFirst : Obligations.StreamFieldsLowByteFirst := by
  unfold Obligations.StreamFieldsLowByteFirst
  intro lo hi rest
  exact ⟨wordOfBytes lo hi, wordOfBytes_toNat lo hi, rfl, rfl, rfl, rfl, rfl, rfl⟩

/-- Settles O10: extension to the 32 bits of a record and truncation back to the width. -/
theorem immediateValues : Obligations.ImmediateValues := by
  unfold Obligations.ImmediateValues
  intro b v s
  have hbyte : readOp .byte (.imm (b.setWidth 32)) s = some (zext16 b) := by
    have hb : (b.setWidth 32).setWidth 16 = zext16 b :=
      BitVec.setWidth_setWidth_of_le b (by decide)
    rw [readOp, hb, truncW, loByte_zext16]
  have hword : readOp .word (.imm (v.setWidth 32)) s = some v := by
    rw [readOp, truncW, BitVec.setWidth_setWidth_of_le v (by decide), BitVec.setWidth_eq]
  have hsext : (b.signExtend 32).toInt = b.toInt := BitVec.toInt_signExtend_of_le (by decide)
  have hb32 := toInt_setWidth_32 (by decide) b
  have hv32 := toInt_setWidth_32 (by decide) v
  refine ⟨hb32, hv32, hb32, hv32, hsext, hbyte, hword, hbyte, hword, ?_⟩
  have hrange := byte_toInt_range b
  refine congrArg some (BitVec.eq_of_toInt_eq ?_)
  rw [GrpImm.value, truncW, toInt_setWidth_16 (by omega) (by omega), hsext, sext16,
    BitVec.toInt_signExtend_of_le (by decide)]

/-- Settles O21. -/
theorem secondByteAddress : Obligations.SecondByteAddress := by
  unfold Obligations.SecondByteAddress
  refine ⟨fun p _ h => hiIndex_of_ne h p, rfl, rfl, rfl, fun s v h => ⟨?_, ?_⟩⟩
  · exact (memRead_eq_none_iff ..).2 ⟨h, rfl, rfl⟩
  · exact (memWrite_eq_none_iff ..).2 ⟨h, rfl, rfl⟩

/-- Settles O23. -/
theorem operandAccess : Obligations.OperandAccess := by
  unfold Obligations.OperandAccess
  refine fun s w v => ⟨fun _ => rfl, fun _ => rfl, fun x => ⟨_, rfl, ?_⟩, fun d => ⟨_, rfl, ?_⟩,
    fun _ => rfl, fun _ => rfl⟩
  · rw [truncW_toNat, BitVec.toNat_setWidth]
    cases w <;> simp only [bits] <;> omega
  · have hrange := byte_toInt_range d
    have hrel := relValue_toInt d
    rw [toInt_setWidth_16 (by omega) (by omega), hrel]

/-- Settles O25: truncation is the remainder by `2 ^ W`. -/
theorem arithmeticIsModular : Obligations.ArithmeticIsModular := by
  unfold Obligations.ArithmeticIsModular
  intro w d v s
  have hsub : ((truncW w (d - v)).toNat : Int) = ((d.toNat : Int) - v.toNat) % 2 ^ bits w := by
    rw [truncW_toNat, BitVec.toNat_sub]
    cases w <;> simp only [bits] <;> omega
  refine ⟨?_, hsub, hsub, fun a => ⟨?_, ?_⟩⟩
  · rw [arithResult, truncW_toNat, BitVec.toNat_add]
    cases w <;> simp only [bits] <;> omega
  · rw [State.zf, zfBit, flagUpdate_flags, withZfSf_zf, resultZero_iff]
  · rw [State.sf, sfBit, flagUpdate_flags, withZfSf_sf, resultSign_eq]

/-- Settles O30: jnz is taken exactly when ZF is clear. -/
theorem jnzResult : Obligations.JnzResult := by
  unfold Obligations.JnzResult
  exact fun d s => ⟨fun hz => ⟨jumpTarget d s, jumpTarget_toNat d s, if_pos hz⟩,
    fun hz => if_neg (Bool.not_eq_false _ ▸ hz)⟩

/-- Settles O31: the nineteen meanings are `fallThrough`. -/
theorem otherJumpsFallThrough : Obligations.OtherJumpsFallThrough := by
  unfold Obligations.OtherJumpsFallThrough
  exact fun d s => ⟨rfl, rfl, rfl, rfl, rfl, rfl, rfl, rfl, rfl, rfl, rfl, rfl, rfl, rfl, rfl, rfl,
    rfl, rfl, rfl⟩

/-- Settles O33: both operands of the update are read before its write, and so is the address of the
mov. -/
theorem readsBeforeWrites : Obligations.ReadsBeforeWrites := by
  unfold Obligations.ReadsBeforeWrites
  refine fun dir r s => ⟨?_, ?_, fun hb => ?_⟩
  · obtain ⟨t, ht, hr, hf⟩ := updateOp_same_register .sub (.subRmReg dir r.width r (.reg r)) dir r s
    have hzero : arithResult .sub r.width (readSlice r s) (readSlice r s) = 0 := by
      rw [arithResult, BitVec.sub_self]
      exact truncW_zero _
    rw [hzero] at hr hf
    refine ⟨t, ht, hr.trans (truncW_zero _), ?_, ?_⟩
    · rw [State.zf, hf]; exact withZfSf_zf ..
    · rw [State.sf, hf]; cases r.width <;> exact withZfSf_sf ..
  · obtain ⟨t, ht, hr, -⟩ := updateOp_same_register .add (.addRmReg dir r.width r (.reg r)) dir r s
    refine ⟨t, ht, ?_⟩
    rw [hr, truncW_toNat, arithResult, truncW_toNat, BitVec.toNat_add]
    cases r.width <;> simp only [bits] <;> omega
  · have hea : effectiveAddress (MemForm.noDisp .bx).operand s = s.reg .b := BitVec.add_zero _
    have hread := memRead_word (hiIndex_of_ne hb s.params.hiByteAtFFFF)
    rw [← hea] at hread
    obtain ⟨t, ht, hreg⟩ := moveOp_word_register
      (i := .movRmReg .toReg .word (.word .b) (.mem (.noDisp .bx))) (n := .b)
      (src := .mem (MemForm.noDisp .bx).operand) hread
    exact ⟨t, ht, by rw [hreg, wordOfBytes_toNat, hea]⟩

/-- Settles O58. -/
theorem printedLines : Obligations.PrintedLines := by
  unfold Obligations.PrintedLines
  decide

end Sys2Proof.Proofs
end

section
/-! SUPPORT. The meanings in a state with another SF: no operand read or write looks at the flags
word, and ZF and SF are written together (10_state.md R32). -/

open Sys2Proof.Statements

namespace Sys2Proof.Machine

@[simp] theorem withSf_zf (b : Bool) (s : State) : (withSf b s).zf = s.zf := by
  cases b <;> simp [withSf, State.zf, zfBit]

theorem withSf_other (b : Bool) (s : State) {k : Nat} (h7 : k ≠ 7) :
    (withSf b s).flags.getLsbD k = s.flags.getLsbD k := by
  have hn : (0x0080 : Word) = BitVec.twoPow 16 7 := rfl
  cases b with
  | true => simp [withSf, hn, BitVec.getLsbD_twoPow, h7.symm]
  | false => simpa [withSf, hn, BitVec.getLsbD_twoPow, h7.symm] using BitVec.lt_of_getLsbD

/-- A flag update forgets the old SF. -/
theorem withZfSf_withSf (b : Bool) (s : State) (z n : Bool) :
    withZfSf (withSf b s).flags z n = withZfSf s.flags z n := by
  apply BitVec.eq_of_getLsbD_eq
  intro k _
  by_cases h6 : k = 6
  · rw [h6, withZfSf_zf, withZfSf_zf]
  by_cases h7 : k = 7
  · rw [h7, withZfSf_sf, withZfSf_sf]
  rw [withZfSf_other _ _ _ h6 h7, withZfSf_other _ _ _ h6 h7, withSf_other b s h7]

theorem flagUpdate_withSf (b : Bool) (w : Width) (r : Word) (s : State) :
    flagUpdate w r (withSf b s) = flagUpdate w r s := by
  unfold flagUpdate
  rw [withZfSf_withSf]
  rfl

theorem effectiveAddress_withSf (b : Bool) (m : MemOperand) (s : State) :
    effectiveAddress m (withSf b s) = effectiveAddress m s := by
  cases m with
  | direct a => rfl
  | based e d => cases e <;> rfl

theorem readOp_withSf (b : Bool) (w : Width) (op : Operand) (s : State) :
    readOp w op (withSf b s) = readOp w op s := by
  cases op with
  | reg r => cases r <;> rfl
  | mem m => rw [readOp, effectiveAddress_withSf]; rfl
  | imm v | rel v => rfl

theorem memWrite_withSf (b : Bool) (w : Width) (ea v : Word) (s : State) :
    memWrite w ea v (withSf b s) = (memWrite w ea v s).map (withSf b) := by
  cases w with
  | byte => rfl
  | word =>
    simp only [memWrite]
    cases h : hiIndex s.params.hiByteAtFFFF ea with
    | none => simp only [withSf, h]; rfl
    | some k => simp only [withSf, h]; rfl

theorem writeLoc_withSf (b : Bool) (w : Width) (dst : Loc) (v : Word) (s : State) :
    writeLoc w dst v (withSf b s) = (writeLoc w dst v s).map (withSf b) := by
  cases dst with
  | reg r => cases r <;> rfl
  | mem m => rw [writeLoc, effectiveAddress_withSf, memWrite_withSf]; rfl

/-- The answers from two states that differ in SF alone differ in SF alone. -/
def sameButSf (r r' : Result) : Prop :=
  ∃ t t', r = .next t ∧ r' = .next t' ∧ t'.regs = t.regs ∧ t'.ip = t.ip ∧ t'.mem = t.mem ∧
    t'.zf = t.zf ∧ t'.runState = t.runState

theorem sameButSf_rfl (t : State) : sameButSf (.next t) (.next t) :=
  ⟨t, t, rfl, rfl, rfl, rfl, rfl, rfl, rfl⟩

theorem sameButSf_withSf (b : Bool) (t : State) : sameButSf (.next t) (.next (withSf b t)) :=
  ⟨t, withSf b t, rfl, rfl, rfl, rfl, rfl, withSf_zf b t, rfl⟩

variable (b : Bool) (i : Instr) (w : Width) (dst : Loc) (src : Operand) (s : State)

theorem moveOp_withSf : sameButSf (moveOp i w dst src s) (moveOp i w dst src (withSf b s)) := by
  simp only [moveOp, readOp_withSf, writeLoc_withSf]
  cases readOp w src s with
  | none => exact sameButSf_withSf b _
  | some v =>
    cases hu : writeLoc w dst v s with
    | none => simp only [hu]; exact sameButSf_withSf b (raise (wordAtFFFFRecord i s.ip) s)
    | some u => simp only [hu]; exact sameButSf_withSf b (advance i u)

theorem updateOp_withSf (a : Arith) :
    sameButSf (updateOp a i w dst src s) (updateOp a i w dst src (withSf b s)) := by
  simp only [updateOp, readOp_withSf, writeLoc_withSf]
  cases readOp w dst.operand s with
  | none => exact sameButSf_withSf b _
  | some d =>
    cases readOp w src s with
    | none => exact sameButSf_withSf b _
    | some v =>
      cases hu : writeLoc w dst (arithResult a w d v) s with
      | none => simp only [hu]; exact sameButSf_withSf b (raise (wordAtFFFFRecord i s.ip) s)
      | some u =>
        simp only [hu, Option.map_some, flagUpdate_withSf]
        exact sameButSf_rfl _

theorem compareOp_withSf :
    sameButSf (compareOp i w dst src s) (compareOp i w dst src (withSf b s)) := by
  simp only [compareOp, readOp_withSf, flagUpdate_withSf]
  cases readOp w dst.operand s with
  | none => exact sameButSf_withSf b _
  | some d =>
    cases readOp w src s with
    | none => exact sameButSf_withSf b _
    | some v => exact sameButSf_rfl _

theorem execJnz_withSf (d : Byte) : sameButSf (execJnz d s) (execJnz d (withSf b s)) := by
  simp only [execJnz, withSf_zf]
  split
  · exact sameButSf_withSf b (s.setIp (jumpTarget d s))
  · exact sameButSf_withSf b (advance (.jnz d) s)

theorem exec_withSf : sameButSf (exec i s) (exec i (withSf b s)) := by
  cases meaning i with
  | mov w dst src hrec hone hexec => rw [hexec, hexec]; exact moveOp_withSf ..
  | update a w dst src ha hrec hone hexec => rw [hexec, hexec]; exact updateOp_withSf ..
  | compare w dst src hrec hone hexec => rw [hexec, hexec]; exact compareOp_withSf ..
  | jnz d hi => subst hi; exact execJnz_withSf b s d
  | fallThrough j d hrec hjnz hexec => rw [hexec, hexec]; exact sameButSf_withSf b (advance i s)

end Sys2Proof.Machine
end

section
/-! SUPPORT. The signals hold a record without loss, and the fault signal is that of the state after
the step (10_state.md R38). -/

open Sys2Proof.Statements

namespace Sys2Proof

/-- The twenty-four kinds (30_encoding.md R90). -/
def allKinds : List Kind :=
  [.data .mov, .data (.arith .add), .data (.arith .sub), .data (.arith .cmp), .jump .je, .jump .jl,
   .jump .jle, .jump .jb, .jump .jbe, .jump .jp, .jump .jo, .jump .js, .jump .jnz, .jump .jnl,
   .jump .jg, .jump .jnb, .jump .ja, .jump .jnp, .jump .jno, .jump .jns, .jump .loop,
   .jump .loopz, .jump .loopnz, .jump .jcxz]

/-- The sixteen slices (10_state.md R22). -/
def allSlices : List Slice :=
  [.word .a, .word .b, .word .c, .word .d, .word .sp, .word .bp, .word .si, .word .di,
   .low .a, .low .b, .low .c, .low .d, .high .a, .high .b, .high .c, .high .d]

theorem kind_mem_allKinds (k : Kind) : k ∈ allKinds := by
  rcases k with (_ | a) | j
  · decide
  · cases a <;> decide
  · cases j <;> decide

theorem slice_mem_allSlices (r : Slice) : r ∈ allSlices := by
  cases r with
  | word n | low n | high n => cases n <;> decide

theorem index_inj {k k' : Kind} (h : k.index = k'.index) : k = k' :=
  have hnodup : (allKinds.map Kind.index).Nodup := by decide
  List.inj_on_of_nodup_map hnodup (kind_mem_allKinds k) (kind_mem_allKinds k') h

theorem index_le (k : Kind) : k.index ≤ 23 :=
  have hall : ∀ k ∈ allKinds, k.index ≤ 23 := by decide
  hall k (kind_mem_allKinds k)

theorem slicePayload_inj {r r' : Slice}
    (h : Operand.payload (some (.reg r)) = Operand.payload (some (.reg r'))) : r = r' :=
  have hnodup : (allSlices.map fun r => Operand.payload (some (.reg r))).Nodup := by decide
  List.inj_on_of_nodup_map hnodup (slice_mem_allSlices r) (slice_mem_allSlices r') h

/-- The `expr` signal of an expression is its `r/m` value, and is not that of a direct address. -/
theorem exprSignal_based (e : AddrExpr) (d : Word) :
    addrExprOf ((MemOperand.based e d).exprSignal.setWidth 3) = e ∧
      (MemOperand.based e d).exprSignal ≠ 8 := by
  cases e <;> exact ⟨rfl, by simp [MemOperand.exprSignal, AddrExpr.rmBits]⟩

theorem memSignals_inj {m m' : MemOperand} (he : m.exprSignal = m'.exprSignal)
    (hd : m.dispSignal = m'.dispSignal) : m = m' := by
  cases m with
  | direct a =>
    cases m' with
    | direct a' => exact congrArg MemOperand.direct hd
    | based e' d' => exact absurd he.symm (exprSignal_based e' d').2
  | based e d =>
    cases m' with
    | direct a' => exact absurd he (exprSignal_based e d).2
    | based e' d' =>
      obtain rfl : e = e' := by
        rw [← (exprSignal_based e d).1, he, (exprSignal_based e' d').1]
      exact congrArg (MemOperand.based e) hd

/-- The payload tells the kinds of operand apart and holds each without loss. -/
theorem payload_inj {op op' : Option Operand} (h : Operand.payload op = Operand.payload op') :
    op = op' := by
  rcases op with _ | op
  · rcases op' with _ | op'
    · rfl
    · cases op' <;> cases h
  · rcases op' with _ | op'
    · cases op <;> cases h
    · cases op with
      | reg r =>
        cases op' with
        | reg r' => rw [slicePayload_inj h]
        | mem | imm | rel => cases h
      | mem m =>
        cases op' with
        | mem m' =>
          obtain ⟨he, hd⟩ := Payload.mem.inj h
          rw [memSignals_inj he hd]
        | reg | imm | rel => cases h
      | imm v =>
        cases op' with
        | imm v' => rw [Payload.imm.inj h]
        | reg | mem | rel => cases h
      | rel v =>
        cases op' with
        | rel v' => rw [Payload.rel.inj h]
        | reg | mem | imm => cases h

theorem bit_inj {w w' : Width} (h : w.bit = w'.bit) : w = w' := by
  rw [← widthOf_bit w, h, widthOf_bit]

theorem record_size_bounds (i : Instr) : 1 ≤ i.record.size ∧ i.record.size ≤ 6 := by
  rw [record_size]
  exact (encode_length i).2

/-- The `kind` and `size` signals are wide enough (10_state.md R38). -/
theorem recordSignals_toNat (i : Instr) :
    (recordSignals i.record).kind.toNat = i.record.kind.index ∧
      (recordSignals i.record).size.toNat = i.record.size := by
  have hkind := index_le i.record.kind
  have hsize := (record_size_bounds i).2
  simp only [recordSignals, BitVec.toNat_ofNat]
  omega

theorem instRecord_ext {r r' : InstRecord} (hkind : r.kind = r'.kind) (hwide : r.wide = r'.wide)
    (hsize : r.size = r'.size) (hop0 : r.op0 = r'.op0) (hop1 : r.op1 = r'.op1) : r = r' := by
  cases r
  cases r'
  rw [InstRecord.mk.injEq]
  exact ⟨hkind, hwide, hsize, hop0, hop1⟩

theorem recordSignals_inj {i j : Instr} (h : recordSignals i.record = recordSignals j.record) :
    i.record = j.record := by
  have hi := recordSignals_toNat i
  have hj := recordSignals_toNat j
  rw [h] at hi
  have hkind := index_inj (hi.1.symm.trans hj.1)
  have hsize := hi.2.symm.trans hj.2
  have hwide := bit_inj (congrArg RecordSignals.wide h)
  have hop0 := payload_inj (congrArg (fun r => r.op0.payload) h)
  have hop1 := payload_inj (congrArg (fun r => r.op1.payload) h)
  exact instRecord_ext hkind hwide hsize (Option.some.inj hop0) hop1

open Machine in
/-- A record has two operands, the first a destination, or is that of a jump. -/
theorem record_shape (i : Instr) :
    (∃ k w dst src, i.record = dataRecord k w i.size dst src) ∨
      ∃ j d, i.record = jumpRecord j d := by
  cases meaning i with
  | mov w dst src hrec | update a w dst src ha hrec | compare w dst src hrec =>
    exact .inl ⟨_, w, dst, src, hrec⟩
  | jnz d hi => exact .inr ⟨.jnz, d, hi ▸ rfl⟩
  | fallThrough j d hrec => exact .inr ⟨j, d, hrec⟩

/-- A jump operand is a displacement byte plus 2 (30_encoding.md R79). -/
theorem op0_rel_range {i : Instr} {v : BitVec 32} (h : i.record.op0 = .rel v) :
    -126 ≤ v.toInt ∧ v.toInt ≤ 129 := by
  obtain ⟨k, w, dst, src, hrec⟩ | ⟨j, d, hrec⟩ := record_shape i
  · rw [hrec] at h
    cases dst <;> cases h
  · rw [hrec] at h
    cases h
    have hlo : -2 ^ 7 ≤ d.toInt := BitVec.le_toInt d
    have hhi : d.toInt < 2 ^ 7 := BitVec.toInt_lt
    rw [relValue_toInt]
    omega

namespace Machine

theorem settle_faultSignal {s : State} (h : s.runState.faultSignal = 0) :
    (settle s).runState.faultSignal = 0 := by
  unfold settle
  split
  · rfl
  · exact h

/-- The end of a step raises no fault of its own. -/
theorem complete_faultSignal (i : Instr) (t : State) :
    (complete i t).runState.faultSignal = t.runState.faultSignal := by
  cases h : t.runState with
  | faulted r => simp only [complete, h]
  | running | ended =>
    simp only [complete, h]
    exact settle_faultSignal (by rw [emit_runState, h]; rfl)

theorem faultSignal_eq_zero_iff (st : RunState) :
    st.faultSignal = 0 ↔ ∀ r, st ≠ .faulted r := by
  cases st with
  | running | ended => simp
  | faulted r =>
    obtain ⟨c, -, -⟩ := r
    cases c <;> simp [RunState.faultSignal, FaultCause.code]

/-- The fault signal of a step is that of the run status after it. -/
theorem stepSignals_fault {s t : State} (h : step s = .next t) :
    (stepSignals s).fault = t.runState.faultSignal := by
  obtain ⟨hrun, -, ⟨f, hf, ht⟩ | ⟨i, hi, ⟨hm, ht⟩ | ⟨hm, u, hu, ht⟩⟩⟩ := step_cases h
  · simp only [stepSignals, hf, Decoded.signals, ht, raise_runState, decodeFault_signal]
  · simp only [stepSignals, hi, hm, Decoded.signals, ht, complete_faultSignal, advance_runState,
      hrun, faultSignal_running]
  · simp only [stepSignals, hi, hm, ht, complete_faultSignal, hu, answerFaultSignal]

end Machine

end Sys2Proof
end

section
/-! The obligations on SF and on the signals. -/

open Sys2Proof Sys2Proof.Machine Sys2Proof.Statements

namespace Sys2Proof.Proofs

/-- Settles O50: by the five shapes of the meanings. -/
theorem signFlagIsNeverRead : Obligations.SignFlagIsNeverRead := by
  unfold Obligations.SignFlagIsNeverRead
  intro i s t b h
  obtain ⟨t₁, t', h₁, h', hsame⟩ := exec_withSf b i s
  obtain rfl : t = t₁ := Host.Outcome.next.inj (h.symm.trans h₁)
  exact ⟨t', h', hsame⟩

/-- Settles O60: each signal is wide enough for its field, and the fault signal of a step is that of
the run status after it. -/
theorem recordSignalValues : Obligations.RecordSignalValues := by
  unfold Obligations.RecordSignalValues
  refine ⟨fun _ _ h => recordSignals_inj h, fun i => ?_, fun r => ?_, fun s t h => ?_⟩
  · obtain ⟨hkind, hsize⟩ := recordSignals_toNat i
    obtain ⟨hlo, hhi⟩ := record_size_bounds i
    have hwide : (recordSignals i.record).wide = 1 ↔ i.record.wide = .word := by
      simp only [recordSignals]
      cases i.record.wide <;> decide
    exact ⟨hkind, index_le _, hsize, hlo, hhi, hwide, fun _ hv => op0_rel_range hv⟩
  · exact ⟨r.widthSignal, by cases r <;> rfl, rfl⟩
  · have hfault := stepSignals_fault h
    refine ⟨faultSignal_eq_zero_iff _, hfault, fun r hr => ?_, fun i hi => ?_, fun f hf => ?_⟩
    · rw [hfault, hr, faultSignal_faulted]
    · obtain ⟨f, hf, -⟩ | ⟨j, hj, ⟨-, hsig⟩ | ⟨-, hsig⟩⟩ := stepSignals_cases s
      · cases hi.symm.trans hf
      · cases hi.symm.trans hj; rw [hsig]
      · cases hi.symm.trans hj; rw [hsig]
    · obtain ⟨f', hf', hsig⟩ | ⟨j, hj, -⟩ := stepSignals_cases s
      · rw [hsig]
      · cases hf.symm.trans hj

end Sys2Proof.Proofs
end

section
/-! SUPPORT. The printed text read back: numbers from their digits, operands from their texts, and
the parts of a line from the characters that end them (30_encoding.md R89-R94). -/

open Sys2Proof.Statements

namespace Sys2Proof.Machine

/-- A text is split in one way where a class of characters ends. -/
theorem append_inj_of_separated {p : Char → Bool} {a a' b b' : List Char}
    (ha : ∀ c ∈ a, p c = true) (ha' : ∀ c ∈ a', p c = true)
    (hb : ∀ c ∈ b.head?, p c = false) (hb' : ∀ c ∈ b'.head?, p c = false)
    (h : a ++ b = a' ++ b') : a = a' ∧ b = b' := by
  have hnil : ∀ l : List Char, (∀ c ∈ l.head?, p c = false) → l.takeWhile p = [] := by
    intro l hl
    cases l with
    | nil => rfl
    | cons c l => simp [hl c rfl]
  have hw := congrArg (List.takeWhile p) h
  rw [List.takeWhile_append_of_pos ha, List.takeWhile_append_of_pos ha', hnil b hb, hnil b' hb',
    List.append_nil, List.append_nil] at hw
  exact ⟨hw, List.append_cancel_left (hw ▸ h)⟩

/-! ## Numbers -/

/-- The number that decimal digits stand for. -/
def decimalValue (cs : List Char) : Nat := cs.foldl (fun n c => 10 * n + (c.toNat - 48)) 0

/-- The number that a text of R92-R94 stands for: a sign or none, and decimal digits. -/
def signedValue : List Char → Int
  | '-' :: cs => -(decimalValue cs)
  | '+' :: cs => decimalValue cs
  | cs => decimalValue cs

theorem digitChar_spec :
    ∀ n < 10, (Char.ofNat (48 + n)).toNat = 48 + n ∧ (Char.ofNat (48 + n)).isDigit = true := by
  decide

theorem digits_append (fuel n : Nat) (acc : List Char) :
    digits fuel n acc = digits fuel n [] ++ acc := by
  induction fuel generalizing n acc with
  | zero => rfl
  | succ fuel ih =>
    unfold digits
    split
    · rfl
    · rw [ih, ih (n / 10) [_], List.append_assoc, List.singleton_append]

theorem digits_isDigit (fuel n : Nat) : ∀ c ∈ digits fuel n [], c.isDigit = true := by
  induction fuel generalizing n with
  | zero => nofun
  | succ fuel ih =>
    unfold digits
    split
    · next h => simpa using (digitChar_spec n h).2
    · rw [digits_append]
      intro c hc
      obtain hc | hc := List.mem_append.1 hc
      · exact ih _ c hc
      · rw [List.mem_singleton.1 hc]
        exact (digitChar_spec _ (Nat.mod_lt n (by decide))).2

theorem decimalValue_digits {fuel n : Nat} (h : n < 10 ^ fuel) :
    decimalValue (digits fuel n []) = n := by
  induction fuel generalizing n with
  | zero => exact (Nat.lt_one_iff.1 h).symm
  | succ fuel ih =>
    unfold digits
    split
    · next hn =>
      have hc := (digitChar_spec n hn).1
      simp only [decimalValue, List.foldl_cons, List.foldl_nil, hc]
      omega
    · have hc := (digitChar_spec _ (Nat.mod_lt n (by decide : 0 < 10))).1
      have hv := ih (n := n / 10) (by rw [pow_succ] at h; omega)
      rw [decimalValue] at hv
      rw [digits_append, decimalValue, List.foldl_append, hv]
      simp only [List.foldl_cons, List.foldl_nil, hc]
      omega

theorem natText_isDigit (n : Nat) : ∀ c ∈ (natText n).toList, c.isDigit = true := by
  rw [natText, String.toList_ofList]
  exact digits_isDigit 10 n

theorem decimalValue_natText {n : Nat} (h : n < 10 ^ 10) : decimalValue (natText n).toList = n := by
  rw [natText, String.toList_ofList, decimalValue_digits h]

theorem natText_ne_nil (n : Nat) : (natText n).toList ≠ [] := by
  rw [natText, String.toList_ofList]
  unfold digits
  split
  · exact List.cons_ne_nil _ _
  · rw [digits_append]
    simp

theorem signedValue_of_digits {cs : List Char} (h : ∀ c ∈ cs, c.isDigit = true) :
    signedValue cs = decimalValue cs := by
  unfold signedValue
  split
  · exact absurd (h '-' List.mem_cons_self) (by decide)
  · exact absurd (h '+' List.mem_cons_self) (by decide)
  · rfl

/-- A number in signed decimal stands for itself (30_encoding.md R93). -/
theorem signedValue_intText {v : Int} (h : v.natAbs < 10 ^ 10) :
    signedValue (intText v).toList = v := by
  unfold intText
  split
  · have hminus : ("-" ++ natText v.natAbs).toList = '-' :: (natText v.natAbs).toList := by simp
    rw [hminus, signedValue, decimalValue_natText h]
    omega
  · rw [signedValue_of_digits (natText_isDigit _), decimalValue_natText h]
    omega

theorem signedValue_plus (n : Nat) (h : n < 10 ^ 10) :
    signedValue ("+" ++ natText n).toList = n := by
  have hplus : ("+" ++ natText n).toList = '+' :: (natText n).toList := by simp
  rw [hplus, signedValue, decimalValue_natText h]

theorem natAbs_toInt_lt {n : Nat} (hn : n ≤ 32) (v : BitVec n) : v.toInt.natAbs < 10 ^ 10 := by
  have hv : v.toNat < 2 ^ 32 := v.isLt.trans_le (Nat.pow_le_pow_right (by decide) hn)
  have hp : 2 ^ n ≤ 2 ^ 32 := Nat.pow_le_pow_right (by decide) hn
  rw [BitVec.toInt_eq_toNat_cond]
  split <;> omega

/-- A displacement's text stands for it (30_encoding.md R92). -/
theorem signedValue_dispText (d : Word) : signedValue (dispText d).toList = d.toInt := by
  unfold dispText
  split_ifs with h0 hneg
  · rw [h0]; rfl
  · exact signedValue_intText (natAbs_toInt_lt (by decide) d)
  · have hd : d.toNat < 2 ^ 16 := d.isLt
    rw [signedValue_plus _ (by omega), BitVec.toInt_eq_toNat_cond] at *
    split at hneg <;> split <;> omega

/-! ## The characters of a text -/

/-- The characters of a number in signed decimal. -/
def isNumeric (c : Char) : Bool := c == '-' || c == '+' || c.isDigit

theorem intText_isNumeric (v : Int) : ∀ c ∈ (intText v).toList, isNumeric c = true := by
  have hnat : ∀ c ∈ (natText v.natAbs).toList, isNumeric c = true := fun c hc => by
    simp [isNumeric, natText_isDigit _ c hc]
  unfold intText
  split
  · simpa [isNumeric] using hnat
  · exact hnat

theorem intText_any_isDigit (v : Int) : (intText v).toList.any Char.isDigit = true := by
  have hnat : (natText v.natAbs).toList.any Char.isDigit = true := by
    obtain ⟨c, hc⟩ := List.exists_mem_of_ne_nil _ (natText_ne_nil v.natAbs)
    exact List.any_eq_true.2 ⟨c, hc, natText_isDigit _ c hc⟩
  unfold intText
  split
  · rw [String.toList_append, List.any_append, hnat, Bool.or_true]
  · exact hnat

theorem dispText_isNumeric (d : Word) : ∀ c ∈ (dispText d).toList, isNumeric c = true := by
  have hnat : ∀ c ∈ (natText d.toNat).toList, isNumeric c = true := fun c hc => by
    simp [isNumeric, natText_isDigit _ c hc]
  unfold dispText
  split_ifs
  · simp
  · exact intText_isNumeric _
  · simpa [isNumeric] using hnat

/-- No numeric character is a letter. -/
theorem not_isAlpha_of_isNumeric {c : Char} (h : isNumeric c = true) : c.isAlpha = false := by
  simp only [isNumeric, Bool.or_eq_true, beq_iff_eq] at h
  obtain (rfl | rfl) | h := h
  · decide
  · decide
  · simp only [Char.isDigit, Bool.and_eq_true, decide_eq_true_eq, ge_iff_le,
      UInt32.le_iff_toNat_le, Char.reduceVal, UInt32.reduceToNat] at h
    simp only [Char.isAlpha, Char.isUpper, Char.isLower, Bool.or_eq_false_iff,
      Bool.and_eq_false_iff, decide_eq_false_iff_not, ge_iff_le, UInt32.le_iff_toNat_le,
      Char.reduceVal, UInt32.reduceToNat]
    omega

theorem filter_isAlpha_of_isNumeric {cs : List Char} (h : ∀ c ∈ cs, isNumeric c = true) :
    cs.filter Char.isAlpha = [] :=
  List.filter_eq_nil_iff.2 fun c hc => by simp [not_isAlpha_of_isNumeric (h c hc)]

/-! ## Operands -/

/-- The letters of an addressing expression's text. -/
def exprLetters (e : AddrExpr) : List Char := (exprText e).toList.filter Char.isAlpha

theorem exprLetters_inj {e e' : AddrExpr} (h : exprLetters e = exprLetters e') : e = e' := by
  have hall : ∀ x y : BitVec 3,
      exprLetters (addrExprOf x) = exprLetters (addrExprOf y) → x = y := by decide
  rw [← addrExprOf_rmBits e, ← addrExprOf_rmBits e'] at h ⊢
  rw [hall _ _ h]

theorem exprLetters_ne_nil (e : AddrExpr) : exprLetters e ≠ [] := by
  cases e <;> decide

theorem dispText_inj {d d' : Word} (h : dispText d = dispText d') : d = d' := by
  apply BitVec.eq_of_toInt_eq
  rw [← signedValue_dispText, h, signedValue_dispText]

theorem memText_direct (a : Word) :
    (memText (.direct a)).toList = '[' :: ((natText a.toNat).toList ++ [']']) := by
  simp [memText]

theorem memText_based (e : AddrExpr) (d : Word) :
    (memText (.based e d)).toList =
      '[' :: ((exprText e).toList ++ ((dispText d).toList ++ [']'])) := by
  simp [memText]

/-- The letters of a memory operand's text are those of its expression, and none for a direct
address. -/
theorem memText_letters (m : MemOperand) : (memText m).toList.filter Char.isAlpha =
    match m with
    | .direct _ => []
    | .based e _ => exprLetters e := by
  cases m with
  | direct a =>
    have hnat : ∀ c ∈ (natText a.toNat).toList, isNumeric c = true := fun c hc => by
      simp [isNumeric, natText_isDigit _ c hc]
    simp [memText_direct, filter_isAlpha_of_isNumeric hnat]
  | based e d =>
    simp [memText_based, filter_isAlpha_of_isNumeric (dispText_isNumeric d), exprLetters]

/-- A memory operand's text determines it (30_encoding.md R92). -/
theorem memText_inj {m m' : MemOperand} (h : memText m = memText m') : m = m' := by
  have hletters := (memText_letters m).symm.trans (h ▸ memText_letters m')
  have hlist := congrArg String.toList h
  cases m with
  | direct a =>
    cases m' with
    | based e' d' => exact absurd hletters.symm (exprLetters_ne_nil e')
    | direct a' =>
      have ha : a.toNat < 2 ^ 16 := a.isLt
      have ha' : a'.toNat < 2 ^ 16 := a'.isLt
      rw [memText_direct, memText_direct, List.cons.injEq, List.append_left_inj] at hlist
      have hval := congrArg decimalValue hlist.2
      rw [decimalValue_natText (by omega), decimalValue_natText (by omega)] at hval
      rw [BitVec.eq_of_toNat_eq hval]
  | based e d =>
    cases m' with
    | direct a' => exact absurd hletters (exprLetters_ne_nil e)
    | based e' d' =>
      obtain rfl := exprLetters_inj hletters
      rw [memText_based, memText_based, List.cons.injEq, List.append_right_inj,
        List.append_left_inj, String.toList_inj] at hlist
      rw [dispText_inj hlist.2]

/-- A jump operand's text is `$` and a number that stands for it (30_encoding.md R94). -/
theorem relText_spec (v : BitVec 32) : ∃ cs, (relText v).toList = '$' :: cs ∧
    signedValue cs = v.toInt ∧ ∀ c ∈ cs, isNumeric c = true := by
  unfold relText
  split
  · exact ⟨(intText v.toInt).toList, by simp, signedValue_intText (natAbs_toInt_lt (by decide) v),
      intText_isNumeric _⟩
  · next h =>
    have hv : v.toInt = v.toNat := by
      rw [BitVec.toInt_eq_toNat_cond] at h ⊢
      split at h <;> split <;> omega
    have hlt : v.toNat < 2 ^ 32 := v.isLt
    refine ⟨("+" ++ natText v.toNat).toList, by simp, ?_, ?_⟩
    · rw [signedValue_plus _ (by omega), hv]
    · simpa [isNumeric] using fun c hc => Or.inr (natText_isDigit _ c hc)

/-- What an operand's text begins with: its size qualifier, where it has one. -/
def qualifier (q : Bool) (w : Width) : List Char := if q then (qualifierText w).toList else []

theorem operandText_imm (q : Bool) (w : Width) (v : BitVec 32) :
    (operandText q w (.imm v)).toList = qualifier q w ++ (intText v.toInt).toList := by
  cases q <;> simp [operandText, qualifier]

theorem qualifier_filter (q : Bool) (w : Width) : (qualifier q w).filter isNumeric = [] := by
  cases q <;> cases w <;> decide

/-- An immediate's text stands for it, past the qualifier (30_encoding.md R93). -/
theorem signedValue_immText (q : Bool) (w : Width) (v : BitVec 32) :
    signedValue ((operandText q w (.imm v)).toList.filter isNumeric) = v.toInt := by
  rw [operandText_imm, List.filter_append, qualifier_filter, List.nil_append,
    List.filter_eq_self.2 (intText_isNumeric _),
    signedValue_intText (natAbs_toInt_lt (by decide) v)]

theorem sliceText_inj {r r' : Slice} (h : sliceText r = sliceText r') : r = r' :=
  have hnodup : (allSlices.map sliceText).Nodup := by decide
  List.inj_on_of_nodup_map hnodup (slice_mem_allSlices r) (slice_mem_allSlices r') h

/-- The tag of the operand whose text this is: `[` and `$` mark a memory and a jump operand, and a
digit tells an immediate from a register. -/
def textTag (cs : List Char) : BitVec 3 :=
  if '[' ∈ cs then 2 else if '$' ∈ cs then 4 else if cs.any Char.isDigit then 3 else 1

theorem textTag_operandText (q : Bool) (w : Width) (op : Operand) :
    textTag (operandText q w op).toList = Operand.tag (some op) := by
  cases op with
  | reg r =>
    have hall : ∀ r ∈ allSlices, textTag (sliceText r).toList = 1 := by decide
    exact hall r (slice_mem_allSlices r)
  | mem m => cases m <;> simp [operandText, textTag, memText_direct, memText_based, Operand.tag]
  | imm v =>
    have hq : '[' ∉ qualifier q w ∧ '$' ∉ qualifier q w := by cases q <;> cases w <;> decide
    have hbracket : '[' ∉ (intText v.toInt).toList := fun h =>
      absurd (intText_isNumeric _ _ h) (by decide)
    have hdollar : '$' ∉ (intText v.toInt).toList := fun h =>
      absurd (intText_isNumeric _ _ h) (by decide)
    rw [operandText_imm]
    simp [textTag, hq, hbracket, hdollar, List.any_append, intText_any_isDigit, Operand.tag]
  | rel v =>
    obtain ⟨cs, hcs, -, hnum⟩ := relText_spec v
    have hno : '[' ∉ cs := fun h => absurd (hnum _ h) (by decide)
    simp [operandText, hcs, textTag, hno, Operand.tag]

/-- An operand's text determines the operand, with a qualifier or without one. -/
theorem operandText_inj {q q' : Bool} {w w' : Width} {op op' : Operand}
    (h : operandText q w op = operandText q' w' op') : op = op' := by
  have htag : Operand.tag (some op) = Operand.tag (some op') := by
    rw [← textTag_operandText q w, h, textTag_operandText]
  cases op with
  | reg r =>
    cases op' with
    | reg r' => rw [sliceText_inj h]
    | mem | imm | rel => simp [Operand.tag] at htag
  | mem m =>
    cases op' with
    | mem m' => rw [memText_inj h]
    | reg | imm | rel => simp [Operand.tag] at htag
  | imm v =>
    cases op' with
    | imm v' =>
      rw [BitVec.eq_of_toInt_eq ((signedValue_immText q w v).symm.trans
        (h ▸ signedValue_immText q' w' v'))]
    | reg | mem | rel => simp [Operand.tag] at htag
  | rel v =>
    cases op' with
    | rel v' =>
      obtain ⟨cs, hcs, hv, -⟩ := relText_spec v
      obtain ⟨cs', hcs', hv', -⟩ := relText_spec v'
      have hlist : relText v = relText v' := h
      rw [← String.toList_inj, hcs, hcs', List.cons.injEq] at hlist
      rw [BitVec.eq_of_toInt_eq (hv.symm.trans (hlist.2 ▸ hv'))]
    | reg | mem | imm => simp [Operand.tag] at htag

/-- No operand's text holds the comma that ends the first operand (30_encoding.md R89). -/
theorem operandText_no_comma (q : Bool) (w : Width) (op : Operand) :
    ∀ c ∈ (operandText q w op).toList, (c != ',') = true := by
  have hnum : ∀ c, isNumeric c = true → c ≠ ',' := by
    rintro c hc rfl
    exact absurd hc (by decide)
  intro c hc
  rw [bne_iff_ne]
  rintro rfl
  cases op with
  | reg r =>
    have hall : ∀ r ∈ allSlices, ',' ∉ (sliceText r).toList := by decide
    exact hall r (slice_mem_allSlices r) hc
  | mem m =>
    cases m with
    | direct a =>
      have hnat : ',' ∉ (natText a.toNat).toList := fun h => by simpa using natText_isDigit _ _ h
      simp [operandText, memText_direct, hnat] at hc
    | based e d =>
      have hexpr : ',' ∉ (exprText e).toList := by cases e <;> decide
      have hdisp : ',' ∉ (dispText d).toList := fun h => hnum _ (dispText_isNumeric d _ h) rfl
      simp [operandText, memText_based, hexpr, hdisp] at hc
  | imm v =>
    have hq : ',' ∉ qualifier q w := by cases q <;> cases w <;> decide
    have hint : ',' ∉ (intText v.toInt).toList := fun h => hnum _ (intText_isNumeric _ _ h) rfl
    simp [operandText_imm, hq, hint] at hc
  | rel v =>
    obtain ⟨cs, hcs, -, hcsnum⟩ := relText_spec v
    have hrel : ',' ∉ cs := fun h => hnum _ (hcsnum _ h) rfl
    simp [operandText, hcs, hrel] at hc

theorem kindText_inj {k k' : Kind} (h : kindText k = kindText k') : k = k' :=
  have hnodup : (allKinds.map kindText).Nodup := by decide
  List.inj_on_of_nodup_map hnodup (kind_mem_allKinds k) (kind_mem_allKinds k') h

/-- No mnemonic holds the space that ends it (30_encoding.md R89). -/
theorem kindText_no_space (k : Kind) : ∀ c ∈ (kindText k).toList, (c != ' ') = true := by
  have hall : ∀ k ∈ allKinds, ' ' ∉ (kindText k).toList := by decide
  exact fun c hc => bne_iff_ne.2 fun h => hall k (kind_mem_allKinds k) (h ▸ hc)

/-! ## Lines -/

/-- What follows the first operand of a line. -/
def secondOperandText (q : Bool) (w : Width) : Option Operand → List Char
  | none => []
  | some op => ',' :: ' ' :: (operandText q w op).toList

/-- The three parts of a line (30_encoding.md R89). -/
theorem lineText_toList (r : InstRecord) :
    (lineText r).toList = (kindText r.kind).toList ++
      ' ' :: ((operandText (needsQualifier r.op0 r.op1) r.wide r.op0).toList ++
        secondOperandText (needsQualifier r.op0 r.op1) r.wide r.op1) := by
  cases h : r.op1 <;> simp [lineText, h, secondOperandText]

theorem secondOperandText_head (q : Bool) (w : Width) (op : Option Operand) :
    ∀ c ∈ (secondOperandText q w op).head?, (c != ',') = false := by
  cases op <;> simp [secondOperandText]

theorem secondOperandText_inj {q q' : Bool} {w w' : Width} {op op' : Option Operand}
    (h : secondOperandText q w op = secondOperandText q' w' op') : op = op' := by
  cases op with
  | none =>
    cases op' with
    | none => rfl
    | some op' => cases h
  | some op =>
    cases op' with
    | none => cases h
    | some op' =>
      simp only [secondOperandText, List.cons.injEq, true_and, String.toList_inj] at h
      rw [operandText_inj h]

/-- A line's text is split into the texts of its parts. -/
theorem lineText_split {r r' : InstRecord} (h : lineText r = lineText r') :
    kindText r.kind = kindText r'.kind ∧
      operandText (needsQualifier r.op0 r.op1) r.wide r.op0 =
        operandText (needsQualifier r'.op0 r'.op1) r'.wide r'.op0 ∧
      secondOperandText (needsQualifier r.op0 r.op1) r.wide r.op1 =
        secondOperandText (needsQualifier r'.op0 r'.op1) r'.wide r'.op1 := by
  have hlist := congrArg String.toList h
  rw [lineText_toList, lineText_toList] at hlist
  obtain ⟨hkind, hrest⟩ := append_inj_of_separated (kindText_no_space _) (kindText_no_space _)
    (by simp) (by simp) hlist
  obtain ⟨hop0, hop1⟩ := append_inj_of_separated (operandText_no_comma _ _ _)
    (operandText_no_comma _ _ _) (secondOperandText_head _ _ _) (secondOperandText_head _ _ _)
    (List.cons.inj hrest).2
  exact ⟨String.toList_inj.1 hkind, String.toList_inj.1 hop0, hop1⟩

/-- A qualified immediate's text tells the width. -/
theorem immText_width {w w' : Width} {v v' : BitVec 32}
    (h : operandText true w (.imm v) = operandText true w' (.imm v')) : w = w' := by
  have hhead := congrArg (fun t => t.toList.head?) h
  simp only [operandText_imm] at hhead
  cases w with
  | byte =>
    cases w' with
    | byte => rfl
    | word => simp [qualifier, qualifierText] at hhead
  | word =>
    cases w' with
    | word => rfl
    | byte => simp [qualifier, qualifierText] at hhead

/-- A register operand has the record's width, a record of one operand is a byte record, and the
immediate that goes with a memory operand is qualified. -/
theorem wide_eq_of_texts {r r' : InstRecord} (hinv : RecordInvariants r)
    (hinv' : RecordInvariants r') (hop0 : r.op0 = r'.op0) (hop1 : r.op1 = r'.op1)
    (htext : secondOperandText (needsQualifier r.op0 r.op1) r.wide r.op1 =
      secondOperandText (needsQualifier r'.op0 r'.op1) r'.wide r'.op1) : r.wide = r'.wide := by
  cases h1 : r.op1 with
  | none => exact (hinv.jump_byte h1).trans (hinv'.jump_byte (hop1 ▸ h1)).symm
  | some op =>
    obtain ⟨dst, hdst⟩ := hinv.op0_loc op h1
    cases dst with
    | reg x => exact (hinv.op0_width x hdst).symm.trans (hinv'.op0_width x (hop0 ▸ hdst))
    | mem m =>
      obtain ⟨x, rfl⟩ | ⟨v, rfl⟩ := hinv.mem_source m op hdst h1
      · exact (hinv.op1_width x h1).symm.trans (hinv'.op1_width x (hop1 ▸ h1))
      · rw [← hop0, ← hop1, hdst, h1] at htext
        simp only [secondOperandText, List.cons.injEq, true_and, String.toList_inj] at htext
        exact immText_width htext

end Sys2Proof.Machine
end

section
/-! The obligation on the assembler text. -/

open Sys2Proof Sys2Proof.Machine

namespace Sys2Proof.Proofs

/-- Settles O59: the text is split into mnemonic and operands, each of which reads back, and the
width is that of a register operand or the qualifier's. -/
theorem printedTextDeterminesTheRecord : Obligations.PrintedTextDeterminesTheRecord := by
  unfold Obligations.PrintedTextDeterminesTheRecord
  intro i j hi hj h
  obtain ⟨hkind, htext0, htext1⟩ := lineText_split h
  have hop0 := operandText_inj htext0
  have hop1 := secondOperandText_inj htext1
  exact ⟨kindText_inj hkind,
    wide_eq_of_texts (record_invariants hi) (record_invariants hj) hop0 hop1 htext1, hop0, hop1⟩

end Sys2Proof.Proofs
end
